-- ==== Sys2Proof/Word.lean ====
section
/-! DEFINITION. The word types of the block's registers (10_state.md R20, 00_scope.md R9). Every value is an unsigned
bit vector, bit 0 the least significant; no value of the block is signed. -/

namespace Sys2Proof

/-- The width of OPERAND. -/
abbrev Word64 := BitVec 64

/-- The width of RESULT, INT_PART and STATUS. -/
abbrev Word32 := BitVec 32

/-- The width of CMD: one command word (30_encoding.md R60, R67). -/
abbrev Word16 := BitVec 16

end Sys2Proof
end

