-- ==== Sys2Proof/Syntax.lean ====
section
/-! DEFINITION. The commands of the block: one constructor per row of spec/opcode_table.json (00_scope.md R3,
30_encoding.md R61). -/

namespace Sys2Proof

/-- A command. The two LOG2 commands carry the fractional-bit count F of their FRAC field, an unsigned integer
(30_encoding.md R62); the other five have no operand in the word (R63). -/
inductive Instr where
  /-- BSF64, `bitScanForward` (40_bitscan_forward.md R81). -/
  | bsf64
  /-- BSR64, `bitScanReverse` (41_msb_family.md R110). -/
  | bsr64
  /-- MSB8, `msb8bit` (41_msb_family.md R101). -/
  | msb8
  /-- MSB16, `msb16bit` (41_msb_family.md R102). -/
  | msb16
  /-- MSB32, `msb32bit` (41_msb_family.md R103). -/
  | msb32
  /-- LOG2_32, `fixedPointLog2_32` with F (42_fixed_point_log2.md R140). -/
  | log2_32 (fracBits : Nat)
  /-- LOG2_64, `fixedPointLog2_64` with F (42_fixed_point_log2.md R141). -/
  | log2_64 (fracBits : Nat)
deriving DecidableEq, Repr

end Sys2Proof
end

