-- ==== Sys2Proof/WellFormed.lean ====
section
/-! DEFINITION. Which commands a command word can hold. -/

namespace Sys2Proof

/-- F must fit the 8-bit FRAC field, 0..255 (30_encoding.md R62, R70). The caps 28 and 30 are no part of this check: a
count above the cap is a legal command that faults when it runs (R66). -/
def Instr.wellFormed : Instr → Bool
  | .bsf64 => true
  | .bsr64 => true
  | .msb8 => true
  | .msb16 => true
  | .msb32 => true
  | .log2_32 f => decide (f ≤ 255)
  | .log2_64 f => decide (f ≤ 255)

end Sys2Proof
end

