-- ==== Sys2Proof/Decode.lean ====
section
/-! DEFINITION. Decoding and encoding of a 16-bit command word (30_encoding.md R60 to R69). Every word either decodes to
one command or is rejected by name. -/

namespace Sys2Proof

/-- The field OP, c[3:0] (R60). -/
def opField (c : Word16) : BitVec 4 := c.extractLsb' 0 4

/-- The field RSV, c[7:4] (R60). -/
def rsvField (c : Word16) : BitVec 4 := c.extractLsb' 4 4

/-- The field FRAC, c[15:8] (R60). -/
def fracField (c : Word16) : BitVec 8 := c.extractLsb' 8 8

/-- `legal(c)` of R64. -/
def legal (c : Word16) : Bool :=
  (1 ≤ (opField c).toNat && (opField c).toNat ≤ 7) && rsvField c == 0#4 &&
    (opField c == 6#4 || opField c == 7#4 || fracField c == 0#8)

/-- Why a word is illegal: the three kinds of R65, in the order of its list. -/
inductive DecodeError where
  /-- OP is 0x0 or 0x8 to 0xF. -/
  | reservedOp
  /-- OP is valid and RSV is not 0. -/
  | reservedBits
  /-- OP takes no F and FRAC is not 0. -/
  | fracNotZero
deriving DecidableEq, Repr

/-- A command without FRAC, from its FRAC field (R64, third condition). -/
def decodeWithoutFrac (i : Instr) (frac : BitVec 8) : Except DecodeError Instr :=
  if frac = 0#8 then .ok i else .error .fracNotZero

/-- The command OP selects (R61), with F = zext(c[15:8]) for the LOG2 commands (R62). -/
def decodeOp (op : BitVec 4) (frac : BitVec 8) : Except DecodeError Instr :=
  match op.toNat with
  | 1 => decodeWithoutFrac .bsf64 frac
  | 2 => decodeWithoutFrac .bsr64 frac
  | 3 => decodeWithoutFrac .msb8 frac
  | 4 => decodeWithoutFrac .msb16 frac
  | 5 => decodeWithoutFrac .msb32 frac
  | 6 => .ok (.log2_32 frac.toNat)
  | 7 => .ok (.log2_64 frac.toNat)
  | _ => .error .reservedOp

/-- `decode(c)` of R69. A reserved OP is named before nonzero RSV bits, and those before a nonzero FRAC. -/
def decode (c : Word16) : Except DecodeError Instr :=
  match decodeOp (opField c) (fracField c) with
  | .error .reservedOp => .error .reservedOp
  | r => if rsvField c = 0#4 then r else .error .reservedBits

/-- OP of a command (R61). -/
def Instr.op : Instr → BitVec 4
  | .bsf64 => 1#4
  | .bsr64 => 2#4
  | .msb8 => 3#4
  | .msb16 => 4#4
  | .msb32 => 5#4
  | .log2_32 _ => 6#4
  | .log2_64 _ => 7#4

/-- FRAC of a command (R60, R62); a count above 255 does not fit and loses its upper bits, which is why
`Instr.wellFormed` shuts it out. -/
def Instr.frac : Instr → BitVec 8
  | .bsf64 => 0#8
  | .bsr64 => 0#8
  | .msb8 => 0#8
  | .msb16 => 0#8
  | .msb32 => 0#8
  | .log2_32 f => BitVec.ofNat 8 f
  | .log2_64 f => BitVec.ofNat 8 f

/-- The command word of a well-formed command: FRAC, four zero bits, OP (R60). -/
def encode (i : Instr) : Word16 := i.frac ++ 0#4 ++ i.op

/-- One row of the opcode map of R68. -/
structure OpcodeRow where
  mnemonic : String
  pattern : Word16
  mask : Word16
deriving DecidableEq, Repr

/-- The opcode map of R68, row by row. -/
def opcodeMap : List OpcodeRow :=
  [⟨"BSF64", 0x0001#16, 0xFFFF#16⟩,
   ⟨"BSR64", 0x0002#16, 0xFFFF#16⟩,
   ⟨"MSB8", 0x0003#16, 0xFFFF#16⟩,
   ⟨"MSB16", 0x0004#16, 0xFFFF#16⟩,
   ⟨"MSB32", 0x0005#16, 0xFFFF#16⟩,
   ⟨"LOG2_32", 0x0006#16, 0x00FF#16⟩,
   ⟨"LOG2_64", 0x0007#16, 0x00FF#16⟩]

/-- A word matches a row (`covers`) when it agrees with the row's pattern on the mask's bits (R68). -/
def OpcodeRow.covers (r : OpcodeRow) (c : Word16) : Bool := c &&& r.mask == r.pattern

/-- The mnemonic of a command (R61). -/
def Instr.mnemonic : Instr → String
  | .bsf64 => "BSF64"
  | .bsr64 => "BSR64"
  | .msb8 => "MSB8"
  | .msb16 => "MSB16"
  | .msb32 => "MSB32"
  | .log2_32 _ => "LOG2_32"
  | .log2_64 _ => "LOG2_64"

/-- The command in the low `nbits` bits of `w`, numbered as the opcode table numbers them; the bits above are 0. A
command is exactly one 16-bit word (R67), so a longer row holds no command. -/
def decodeTableWord (nbits w : Nat) : Option Instr :=
  if 16 < nbits then none
  else
    match decode (BitVec.ofNat 16 (w % 2 ^ nbits)) with
    | .ok i => some i
    | .error _ => none

end Sys2Proof
end

