-- ==== Sys2Proof/Machine/Bits.lean ====
section
/-! DEFINITION. The bit scans of the spec's notation (00_scope.md R12) and the fill step of the MSB family (41_msb_family.md
R100). -/

namespace Sys2Proof.Machine

/-- The least index below `n` whose bit of `v` is set, or `n` when there is none. -/
def lowestBelow {w : Nat} (v : BitVec w) : Nat → Nat
  | 0 => 0
  | n + 1 => if lowestBelow v n < n then lowestBelow v n else if v.getLsbD n then n else n + 1

/-- The greatest index below `n` whose bit of `v` is set, or 0 when there is none. -/
def highestBelow {w : Nat} (v : BitVec w) : Nat → Nat
  | 0 => 0
  | n + 1 => if v.getLsbD n then n else highestBelow v n

/-- `bsf(v)`: for v ≠ 0, the least k with v[k] = 1 (R12). Used on nonzero values only. -/
def bsf {w : Nat} (v : BitVec w) : Nat := lowestBelow v w

/-- `bsr(v)`: for v ≠ 0, the greatest k with v[k] = 1 (R12). Used on nonzero values only. -/
def bsr {w : Nat} (v : BitVec w) : Nat := highestBelow v w

/-- The MSB16 and MSB32 functions, at widths 16 and 32 (41_msb_family.md R102, R103): 0 for input 0 (R105), otherwise the
index of the highest set bit. -/
def msbIndex {w : Nat} (u : BitVec w) : Nat := if u = 0#w then 0 else bsr u

/-- `fill(u, S)` of R100: OR in copies of the value shifted right by each amount in turn. -/
def fill {w : Nat} (u : BitVec w) : List Nat → BitVec w
  | [] => u
  | s :: rest => fill (u ||| (u >>> s)) rest

end Sys2Proof.Machine
end

