-- ==== Sys2Proof/Config.lean ====
section
/-! DEFINITION. What an implementation or a platform fixes, and the free value (00_scope.md R8, 92_eei_decisions.md,
93_implementation_defined.md). -/

namespace Sys2Proof

/-- The parameter `RENORM_ROUND` (42_fixed_point_log2.md R134 (a)): which addend the renormalise step rounds with.
The machine's value is the field `renormRound` of State, so that a statement over all states covers both. -/
inductive RenormRound where
  /-- Add `2^s − 1` before the shift. -/
  | ceil
  /-- Add `2^(s−1)` before the shift. -/
  | halfUp
deriving DecidableEq, Repr

/-- The spec's own default of `RENORM_ROUND` (R8, R132; log entry 5). -/
def Config.defaultRenormRound : RenormRound := .ceil

/-- FREE VALUE (41_msb_family.md R107; log entry 4). The result of the n-th MSB8 whose input has bits [15:8] not all
zero: any index in 0..31, and nothing relates one draw to another. -/
opaque Config.msb8Draw : Nat → BitVec 5

/-- The open parameter `HOST_BASE` (20_memory.md R41). -/
opaque Config.hostBase : Nat

/-- The open parameter `HOST_STRIDE` (20_memory.md R41). -/
opaque Config.hostStride : Nat

/-- The open parameter `BUS_BYTE_ORDER` (20_memory.md R42): for the register of a number, of so many bytes, which of its bytes the
platform's bus carries at each position. Any order at all, and another for each register (log entry 13). -/
opaque Config.busByteOrder (number bytes : Nat) : Equiv.Perm (Fin bytes)

/-- The open parameter `FAULT_IRQ` (60_exceptions.md R177): whether the platform takes STATUS.FAULT as a level. -/
opaque Config.faultIrq : Bool

/-- The constant K_FWD of the forward datapath (40_bitscan_forward.md R83). PRESUMED: the spec's source gives none; this is
the value of 93_implementation_defined.md section 2.1 (log entry 6). No command's result depends on it. -/
def Config.kFwd : BitVec 32 := 0x78291ACF#32

/-- The constant K_REV of the reverse datapath (41_msb_family.md R111). PRESUMED: 93_implementation_defined.md section 2.2. -/
def Config.kRev : BitVec 64 := 0x03F79D71B4CB0A89#64

/-- The constant K_MSB of the 32-entry datapath (41_msb_family.md R104). PRESUMED: 93_implementation_defined.md section 2.3. -/
def Config.kMsb : BitVec 32 := 0x07C4ACDD#32

/-- Contents of T_FWD. PRESUMED: 93_implementation_defined.md section 2.1 (log entry 6). -/
def Config.tFwd : Vector (BitVec 6) 64 :=
  #v[63, 30,  3, 32, 59, 14, 11, 33,
     60, 24, 50,  9, 55, 19, 21, 34,
     61, 29,  2, 53, 51, 23, 41, 18,
     56, 28,  1, 43, 46, 27,  0, 35,
     62, 31, 58,  4,  5, 49, 54,  6,
     15, 52, 12, 40,  7, 42, 45, 16,
     25, 57, 48, 13, 10, 39,  8, 44,
     20, 47, 38, 22, 17, 37, 36, 26]

/-- Contents of T_REV. PRESUMED: 93_implementation_defined.md section 2.2 (log entry 6). -/
def Config.tRev : Vector (BitVec 6) 64 :=
  #v[ 0, 47,  1, 56, 48, 27,  2, 60,
     57, 49, 41, 37, 28, 16,  3, 61,
     54, 58, 35, 52, 50, 42, 21, 44,
     38, 32, 29, 23, 17, 11,  4, 62,
     46, 55, 26, 59, 40, 36, 15, 53,
     34, 51, 20, 43, 31, 22, 10, 45,
     25, 39, 14, 33, 19, 30,  9, 24,
     13, 18,  8, 12,  7,  6,  5, 63]

/-- Contents of T_MSB. PRESUMED: 93_implementation_defined.md section 2.3 (log entry 6). -/
def Config.tMsb : Vector (BitVec 5) 32 :=
  #v[ 0,  9,  1, 10, 13, 21,  2, 29,
     11, 14, 16, 18, 22, 25,  3, 30,
      8, 12, 20, 28, 15, 17, 24,  7,
     19, 27, 23,  6, 26,  5,  4, 31]

end Sys2Proof
end

