-- ==== Sys2Proof/Machine/State.lean ====
section
/-! DEFINITION. The state of one block, as plain data: the host registers (10_state.md R20), the constant tables (R29), the
parameter RENORM_ROUND, and what the model adds: the host's accesses still to come, the values its reads returned, and
the number of free values drawn. -/

namespace Sys2Proof.Machine

/-- What a host register holds. `unwritten` is the spec's own `UNWRITTEN` (00_scope.md R12, 10_state.md R32, R33): no operation
has written the register since reset, and it has no value. -/
inductive Contents (w : Nat) where
  | unwritten
  | value (v : BitVec w)
deriving DecidableEq, Repr

/-- The five host registers (10_state.md R20). -/
inductive Reg where
  | operand
  | cmd
  | result
  | intPart
  | status
deriving DecidableEq, Repr

/-- Who issues an access: the one host the block serves, or another (20_memory.md R48, R49). -/
inductive Requester where
  | servedHost
  | otherHost
deriving DecidableEq, Repr

/-- One action of the host side. An access names a register by its number (20_memory.md R41) and a width in bits, and may be
one the block refuses. -/
inductive HostAction where
  /-- Read register number `reg` at `width` bits. -/
  | read (who : Requester) (reg width : Nat)
  /-- Write `v` to register number `reg` at `width` bits. -/
  | write (who : Requester) (reg width : Nat) (v : BitVec width)
  /-- Apply reset (30_encoding.md R70, 70_reset_and_hazards.md R200), whatever the platform's `RESET_SOURCE` is. -/
  | reset
deriving DecidableEq, Repr

/-- The value a read returned, by the register read (CMD is never read). -/
inductive Returned where
  | operand (v : Word64)
  | result (v : Word32)
  | intPart (v : Word32)
  | status (v : Word32)
deriving DecidableEq, Repr

/-- The three constant lookup tables (10_state.md R29). -/
structure ConstTables where
  fwd : Vector (BitVec 6) 64
  rev : Vector (BitVec 6) 64
  msb : Vector (BitVec 5) 32
deriving DecidableEq, Repr

/-- How a step can stop with a fault. -/
inductive Fault where
  /-- A CMD write while STATUS.FAULT = 1 has no step (60_exceptions.md R173, R184). Raised by `takeCommand` for every
  command word. Safe: the machine stops, as the rule says. -/
  | stuck
deriving DecidableEq, Repr

/-- How a step can be refused: the accesses to which the spec gives no meaning (60_exceptions.md R184). Every refusal is safe:
the run ends there, as the spec says. -/
inductive Refusal where
  /-- An instruction without a meaning yet. Raised by arms of `exec` only; no arm raises it. Safe. -/
  | notModelled (mnemonic : String)
  /-- A CMD write while OPERAND is UNWRITTEN: R32 has it "also refused, because the command would read an input that has no value",
  and 60_exceptions.md R174 places the refusal among the checks. Raised by `takeCommand`. Safe. -/
  | operandUnwritten
  /-- A read of a register that is UNWRITTEN: R32 has a read of RESULT or INT_PART then "refused by the model", and
  93_implementation_defined.md row 26 has the same of OPERAND. Raised by `returnContents`. Safe. -/
  | readUnwritten (reg : Reg)
  /-- A read of CMD (10_state.md R31). Raised by `hostRead`. Safe. -/
  | notReadable (reg : Reg)
  /-- A write of RESULT, INT_PART or STATUS (10_state.md R31). Raised by `hostWrite`. Safe. -/
  | notWritable (reg : Reg)
  /-- An access to register number 5 or more (10_state.md R31). Raised by `hostRead` and `hostWrite`. Safe. -/
  | noSuchRegister (number : Nat)
  /-- A partial access, or one of another width than the register's (20_memory.md R43). Raised by `hostRead` and
  `hostWrite`. Safe. -/
  | wrongWidth (reg : Reg)
  /-- An access by a second host (20_memory.md R49). Raised by `perform`. Safe. -/
  | secondHost
deriving DecidableEq, Repr

/-- One block and what its host is about to do. -/
structure State where
  /-- OPERAND, register 0 (R20, R21). -/
  operand : Contents 64
  /-- CMD, register 1 (R20, R22): the last command word that completed (log entry 7). -/
  cmd : Contents 16
  /-- RESULT, register 2 (R20, R23). -/
  result : Contents 32
  /-- INT_PART, register 3 (R20, R24). -/
  intPart : Contents 32
  /-- STATUS, register 4 (R20, R25); its fields are read in Flags.lean. -/
  status : Word32
  /-- T_FWD, T_REV and T_MSB (R29). -/
  tables : ConstTables
  /-- The parameter RENORM_ROUND (42_fixed_point_log2.md R134), constant over a run (log entry 5). -/
  renormRound : RenormRound
  /-- The model's own: how many free MSB8 results have been drawn (log entry 4). -/
  draws : Nat
  /-- The model's own: the host's actions not yet performed, first one first (log entry 2). -/
  pending : List HostAction
  /-- The model's own: the values the host's reads returned, oldest first (70_reset_and_hazards.md R208; log entry 3). -/
  returned : List Returned
deriving DecidableEq, Repr

/-- The block right after reset (10_state.md R33): the four registers UNWRITTEN, STATUS 0, the tables with their constant
contents. RENORM_ROUND has the spec's default. The model's own fields start empty. -/
def State.reset : State where
  operand := .unwritten
  cmd := .unwritten
  result := .unwritten
  intPart := .unwritten
  status := 0#32
  tables := ⟨Config.tFwd, Config.tRev, Config.tMsb⟩
  renormRound := Config.defaultRenormRound
  draws := 0
  pending := []
  returned := []

/-- What a step answers. -/
abbrev Answer := Host.Outcome State Fault Refusal

end Sys2Proof.Machine
end

