-- ==== Sys2Proof/Machine/Flags.lean ====
section
/-! DEFINITION. The fields of STATUS and every value a command can leave in them (10_state.md R25, 60_exceptions.md R171,
R172). STATUS is the block's only flag register (10_state.md R28). -/

namespace Sys2Proof.Machine

/-- The causes a command can fault with (60_exceptions.md R171, codes 1 to 4; code 0 is NONE). -/
inductive Cause where
  | illegalCommand
  | bsfZero
  | bsrZero
  | fracBitsExceeded
deriving DecidableEq, Repr

/-- The cause codes (60_exceptions.md R171). -/
def causeCode : Cause → BitVec 4
  | .illegalCommand => 1#4
  | .bsfZero => 2#4
  | .bsrZero => 3#4
  | .fracBitsExceeded => 4#4

/-- STATUS.FAULT, bit 0 (10_state.md R25). -/
def faultBit (status : Word32) : Bool := status.getLsbD 0

/-- STATUS.CAUSE, bits [7:4] (10_state.md R25). -/
def causeField (status : Word32) : BitVec 4 := status.extractLsb' 4 4

/-- The STATUS value of a fault: `zext_32((CAUSE << 4) OR 1)` (60_exceptions.md R172). -/
def faultStatus (c : Cause) : Word32 := ((causeCode c).setWidth 32 <<< 4) ||| 1#32

/-- The STATUS values the spec allows: 0, or one of the four fault values (10_state.md R25): reserved bits 0, CAUSE 0 exactly
when FAULT is 0, CAUSE never 5 to 15. -/
def legalStatus (status : Word32) : Bool :=
  status == 0#32 || status == faultStatus .illegalCommand || status == faultStatus .bsfZero ||
    status == faultStatus .bsrZero || status == faultStatus .fracBitsExceeded

end Sys2Proof.Machine
end

