-- ==== Sys2Proof/Machine/Operands.lean ====
section
/-! DEFINITION. The operand forms: the low part of OPERAND that each input width names (10_state.md R21, 30_encoding.md R61,
R63), and the widths and numbers of the host registers (10_state.md R20). -/

namespace Sys2Proof.Machine

/-- OPERAND[63:0]: BSF64, BSR64, LOG2_64. -/
def input64 (operand : Word64) : BitVec 64 := operand

/-- OPERAND[31:0]: MSB32, LOG2_32. -/
def input32 (operand : Word64) : BitVec 32 := operand.extractLsb' 0 32

/-- OPERAND[15:0]: MSB8, MSB16. -/
def input16 (operand : Word64) : BitVec 16 := operand.extractLsb' 0 16

/-- Bits [15:8] of the 16-bit MSB8 input, the bits that are not meaningful (41_msb_family.md R101). -/
def msb8HighByte (u : BitVec 16) : BitVec 8 := u.extractLsb' 8 8

/-- The register of a number; numbers 5 and above name none (10_state.md R20, R31). -/
def Reg.ofNumber : Nat → Option Reg
  | 0 => some .operand
  | 1 => some .cmd
  | 2 => some .result
  | 3 => some .intPart
  | 4 => some .status
  | _ => none

/-- The number of a register (10_state.md R20). -/
def Reg.number : Reg → Nat
  | .operand => 0
  | .cmd => 1
  | .result => 2
  | .intPart => 3
  | .status => 4

/-- The width of a register, which is the only width it is accessed at (10_state.md R20, 20_memory.md R43, R45). -/
def Reg.width : Reg → Nat
  | .operand => 64
  | .cmd => 16
  | .result => 32
  | .intPart => 32
  | .status => 32

end Sys2Proof.Machine
end

