-- ==== Sys2Proof/Machine/Ops.lean ====
section
/-! DEFINITION. The shared operations over the host registers: what must hold before any command runs, writing a result,
taking a fault, drawing a free value, and reset. There is no memory (20_memory.md R40), and no return from a fault other
than reset (60_exceptions.md R176). -/

namespace Sys2Proof.Machine

/-- STATUS.FAULT of a state. -/
def State.faulted (s : State) : Bool := faultBit s.status

/-- What comes before every command, in the order of 60_exceptions.md R174: while FAULT = 1 there is no step (R173); an
UNWRITTEN OPERAND is refused (10_state.md R32); otherwise `run` goes on with OPERAND's value. -/
def takeCommand (s : State) (run : Word64 → Answer) : Answer :=
  if s.faulted then .fault .stuck
  else
    match s.operand with
    | .unwritten => .refused .operandUnwritten
    | .value v => run v

/-- `raise Fault(CAUSE)` (60_exceptions.md R172): STATUS records the cause and nothing else is written. -/
def raiseFault (c : Cause) (s : State) : Answer := .next { s with status := faultStatus c }

/-- `x[RESULT] <- v`. -/
def writeResult (v : Word32) (s : State) : State := { s with result := .value v }

/-- `x[INT_PART] <- v`. -/
def writeIntPart (v : Word32) (s : State) : State := { s with intPart := .value v }

/-- `x[RESULT] <- zext_32(k)` for a bit index k (10_state.md R23). -/
def writeIndex (k : Nat) (s : State) : State := writeResult (BitVec.ofNat 32 k) s

/-- `x[RESULT] <- zext_32(draw({0, ..., 31}))` (41_msb_family.md R101, R107): the next free value, and the counter moves on so
that no two draws are the same one. -/
def drawResult (s : State) : State :=
  { writeResult ((Config.msb8Draw s.draws).setWidth 32) s with draws := s.draws + 1 }

/-- Reset (70_reset_and_hazards.md R200): the four registers become UNWRITTEN and STATUS 0; the tables keep their contents.
The parameter and the model's own fields are no registers and stay (log entry 17). -/
def resetBlock (s : State) : State :=
  { s with
    operand := .unwritten
    cmd := .unwritten
    result := .unwritten
    intPart := .unwritten
    status := 0#32 }

end Sys2Proof.Machine
end

