-- ==== Sys2Proof/Machine/BitScan.lean ====
section
/-! DEFINITION. BitScanForward: the meaning of BSF64 (40_bitscan_forward.md). -/

namespace Sys2Proof.Machine

/-- BSF64 (R81): the index of the lowest set bit of OPERAND[63:0]; a zero input faults with BSF_ZERO and has no value (R85). -/
def execBsf64 (s : State) : Answer :=
  takeCommand s fun operand =>
    let v := input64 operand
    if v = 0#64 then raiseFault .bsfZero s
    else .next (writeIndex (bsf v) s)

end Sys2Proof.Machine
end

