-- ==== Sys2Proof/Machine/Log2.lean ====
section
/-! DEFINITION. FixedPointLog2: LOG2CORE and the meanings of LOG2_32 and LOG2_64 (42_fixed_point_log2.md). The working value
and the count are exact (R134 (b), R135; 00_scope.md R10); that they fit W bits is a property of the algorithm (R139). -/

namespace Sys2Proof.Machine

/-- The working state of one LOG2 command (10_state.md R30): the working value `w`, the count `nFracBits` and the result bits.
It lives within one command only. -/
structure LoopState where
  w : Nat
  n : Nat
  r : Word32
deriving DecidableEq, Repr

/-- `RND(s)` (R132, R134 (a)): the rounding addend of a shift by s. -/
def roundAddend : RenormRound → Nat → Nat
  | .ceil, s => 2 ^ s - 1
  | .halfUp, s => 2 ^ (s - 1)

/-- The shift of a renormalisation pass: `s = msbH(w[W−1:H]) + 1` (R134), with the MSB16 function for H = 16 and the MSB32
function for H = 32 (R131, 41_msb_family.md R114). -/
def renormShift (half w : Nat) : Nat := msbIndex (BitVec.ofNat half (w >>> half)) + 1

/-- One renormalisation pass (R132 step 1): round, shift, and lower the count by the shift. The sum is exact (R134 (b)). -/
def renormPass (mode : RenormRound) (half : Nat) (st : LoopState) : LoopState :=
  let s := renormShift half st.w
  { st with w := (st.w + roundAddend mode s) >>> s, n := st.n - s }

/-- `while w >= 2^H` (R132, R134 (c)), for at most `passes` passes. -/
def renormWhile (mode : RenormRound) (half : Nat) : Nat → LoopState → LoopState
  | 0, st => st
  | passes + 1, st =>
    if 2 ^ half ≤ st.w then renormWhile mode half passes (renormPass mode half st) else st

/-- The renormalise step: two passes are all the loop ever makes (R134 (c), R139). -/
def renormalise (mode : RenormRound) (half : Nat) (st : LoopState) : LoopState :=
  renormWhile mode half 2 st

/-- Steps 2 and 3 of R132: square, double the count, shift the result, and extract the next bit by the comparison
`w >= 2^(n+1)` (R136). -/
def squareAndExtract (st : LoopState) : LoopState :=
  let w := st.w * st.w
  let n := 2 * st.n
  let r := st.r <<< 1
  if 2 ^ (n + 1) ≤ w then ⟨w, n + 1, r ||| 1#32⟩ else ⟨w, n, r⟩

/-- One iteration of the loop of R132. -/
def log2Iteration (mode : RenormRound) (half : Nat) (st : LoopState) : LoopState :=
  squareAndExtract (renormalise mode half st)

/-- `repeat F times`. -/
def log2Loop (mode : RenormRound) (half : Nat) : Nat → LoopState → LoopState
  | 0, st => st
  | k + 1, st => log2Iteration mode half (log2Loop mode half k st)

/-- The set-up of R132 for a nonzero input: trailing zeros shifted away, n = ms − tz, no result bits. -/
def log2Init {w : Nat} (v : BitVec w) : LoopState := ⟨v.toNat >>> bsf v, bsr v - bsf v, 0#32⟩

/-- The fraction of a nonzero input (R132): 0 at once for a power of two, otherwise the result bits of F iterations. -/
def log2Fraction (mode : RenormRound) {w : Nat} (half : Nat) (v : BitVec w) (f : Nat) : Word32 :=
  if bsf v = bsr v then 0#32 else (log2Loop mode half f (log2Init v)).r

/-- The zero-input sentinel (R133, 90_conflicts.md C12). -/
def log2Sentinel : Word32 := 0xFFFFFFFF#32

/-- LOG2CORE (R132), its checks in the order of R133: the cap on F, the zero input, then the fast path and the loop. -/
def log2Core {w : Nat} (half cap : Nat) (v : BitVec w) (f : Nat) (s : State) : Answer :=
  if cap < f then raiseFault .fracBitsExceeded s
  else if v = 0#w then .next (writeResult log2Sentinel s)
  else
    .next (writeResult (log2Fraction s.renormRound half v f) (writeIntPart (BitVec.ofNat 32 (bsr v)) s))

/-- LOG2_32 (R140): `LOG2CORE(32, 16, 28, MSB16 function, OPERAND[31:0], F)`. -/
def execLog2_32 (fracBits : Nat) (s : State) : Answer :=
  takeCommand s fun operand => log2Core 16 28 (input32 operand) fracBits s

/-- LOG2_64 (R141): `LOG2CORE(64, 32, 30, MSB32 function, OPERAND[63:0], F)`. -/
def execLog2_64 (fracBits : Nat) (s : State) : Answer :=
  takeCommand s fun operand => log2Core 32 30 (input64 operand) fracBits s

end Sys2Proof.Machine
end

