-- ==== Sys2Proof/Machine/Msb.lean ====
section
/-! DEFINITION. The MSB finder family: the meanings of MSB8, MSB16, MSB32 and BSR64 (41_msb_family.md). -/

namespace Sys2Proof.Machine

/-- MSB8 (R101): for OPERAND[15:8] = 0 the index of the highest set bit of the low byte, 0 for input 0; otherwise an
unspecified value in 0..31, drawn afresh (R107). -/
def execMsb8 (s : State) : Answer :=
  takeCommand s fun operand =>
    let u := input16 operand
    if msb8HighByte u = 0#8 then .next (writeIndex (msbIndex u) s)
    else .next (drawResult s)

/-- MSB16 (R102): the index of the highest set bit of OPERAND[15:0], 0 for input 0. -/
def execMsb16 (s : State) : Answer :=
  takeCommand s fun operand => .next (writeIndex (msbIndex (input16 operand)) s)

/-- MSB32 (R103): the index of the highest set bit of OPERAND[31:0], 0 for input 0. -/
def execMsb32 (s : State) : Answer :=
  takeCommand s fun operand => .next (writeIndex (msbIndex (input32 operand)) s)

/-- BSR64 (R110): the index of the highest set bit of OPERAND[63:0]; a zero input faults with BSR_ZERO. -/
def execBsr64 (s : State) : Answer :=
  takeCommand s fun operand =>
    let v := input64 operand
    if v = 0#64 then raiseFault .bsrZero s
    else .next (writeIndex (bsr v) s)

end Sys2Proof.Machine
end

