-- ==== Sys2Proof/Machine/Dispatch.lean ====
section
/-! DEFINITION. One arm per command: the meaning each constructor of Instr has. -/

namespace Sys2Proof.Machine

def exec (i : Instr) (s : State) : Host.Outcome State Fault Refusal :=
  match i with
  | .bsf64 => Sys2Proof.Machine.execBsf64 s
  | .bsr64 => Sys2Proof.Machine.execBsr64 s
  | .msb8 => Sys2Proof.Machine.execMsb8 s
  | .msb16 => Sys2Proof.Machine.execMsb16 s
  | .msb32 => Sys2Proof.Machine.execMsb32 s
  | .log2_32 fracBits => Sys2Proof.Machine.execLog2_32 fracBits s
  | .log2_64 fracBits => Sys2Proof.Machine.execLog2_64 fracBits s

end Sys2Proof.Machine
end

