-- ==== Sys2Proof/Machine/Access.lean ====
section
/-! DEFINITION. What the host's actions do: reads, writes, the command a CMD write runs, and reset (10_state.md R22, R31, R32;
20_memory.md R43 to R49; 60_exceptions.md R184). -/

namespace Sys2Proof.Machine

/-- Answer a read with a value the host keeps. A read changes nothing in the block (20_memory.md R46). -/
def returnValue (r : Returned) (s : State) : Answer := .next { s with returned := s.returned ++ [r] }

/-- Answer a read of a register that may be UNWRITTEN, which is refused then (10_state.md R32; OPERAND too:
93_implementation_defined.md row 26). -/
def returnContents {w : Nat} (reg : Reg) (c : Contents w) (mk : BitVec w → Returned) (s : State) : Answer :=
  match c with
  | .unwritten => .refused (.readUnwritten reg)
  | .value v => returnValue (mk v) s

/-- A full-width read of a register (10_state.md R31: CMD cannot be read). -/
def readReg (reg : Reg) (s : State) : Answer :=
  match reg with
  | .operand => returnContents .operand s.operand .operand s
  | .cmd => .refused (.notReadable .cmd)
  | .result => returnContents .result s.result .result s
  | .intPart => returnContents .intPart s.intPart .intPart s
  | .status => returnValue (.status s.status) s

/-- A host read of register number `number` at `width` bits. -/
def hostRead (number width : Nat) (s : State) : Answer :=
  match Reg.ofNumber number with
  | none => .refused (.noSuchRegister number)
  | some reg => if width = reg.width then readReg reg s else .refused (.wrongWidth reg)

/-- CMD after a command: a completed command leaves its word, a faulting one is not saved (60_exceptions.md R171, R172;
log entry 7). -/
def keepCommandWord (c : Word16) (s : State) : State := if s.faulted then s else { s with cmd := .value c }

/-- Apply a change to the state of an answer that goes on. -/
def mapNext (f : State → State) : Answer → Answer
  | .next s => .next (f s)
  | .fault e => .fault e
  | .refused e => .refused e

/-- A CMD write of c (10_state.md R22): decode c (30_encoding.md R69) and run the command as one step; a word that is not legal
faults with ILLEGAL_COMMAND (R65), after the checks that come before any command (60_exceptions.md R174). -/
def runCommandWord (c : Word16) (s : State) : Answer :=
  match decode c with
  | .ok i => mapNext (keepCommandWord c) (exec i s)
  | .error _ => takeCommand s fun _ => raiseFault .illegalCommand s

/-- A full-width write of a register (10_state.md R31: RESULT, INT_PART and STATUS cannot be written). -/
def writeReg (reg : Reg) (v : BitVec reg.width) (s : State) : Answer :=
  match reg, v with
  | .operand, v => .next { s with operand := .value v }
  | .cmd, v => runCommandWord v s
  | .result, _ => .refused (.notWritable .result)
  | .intPart, _ => .refused (.notWritable .intPart)
  | .status, _ => .refused (.notWritable .status)

/-- A host write of `v` to register number `number` at `width` bits. -/
def hostWrite (number width : Nat) (v : BitVec width) (s : State) : Answer :=
  match Reg.ofNumber number with
  | none => .refused (.noSuchRegister number)
  | some reg => if h : width = reg.width then writeReg reg (v.cast h) s else .refused (.wrongWidth reg)

/-- One action of the host side. An access by a second host is refused (20_memory.md R49). -/
def perform (a : HostAction) (s : State) : Answer :=
  match a with
  | .read .servedHost number width => hostRead number width s
  | .write .servedHost number width v => hostWrite number width v s
  | .read .otherHost _ _ => .refused .secondHost
  | .write .otherHost _ _ _ => .refused .secondHost
  | .reset => .next (resetBlock s)

/-- The next step: take the host's next action and perform it (20_memory.md R48). While the host issues nothing, nothing
changes (10_state.md R26; log entry 2). -/
def performNext (s : State) : Answer :=
  match s.pending with
  | [] => .next s
  | a :: rest => perform a { s with pending := rest }

/-- The host access that runs the command word c: a full-width write of CMD. -/
def cmdWrite (c : Word16) : HostAction := .write .servedHost 1 16 c

/-- The boot order's second step (70_reset_and_hazards.md R202): OPERAND has been written before a command. A written OPERAND
stays as it is; an UNWRITTEN one takes the value 1, which no command faults on (log entry 12). -/
def operandWritten (s : State) : State :=
  match s.operand with
  | .unwritten => { s with operand := .value 1#64 }
  | .value _ => s

/-- The state in which the host's next action is to write the command word held in the low `nbits` bits of `w` to CMD, with
OPERAND written as the boot order asks (log entry 12). -/
def placeCommand (s : State) (nbits w : Nat) : State :=
  { operandWritten s with pending := cmdWrite (BitVec.ofNat 16 (w % 2 ^ nbits)) :: s.pending }

end Sys2Proof.Machine
end

