-- ==== Sys2Proof/Machine/Step.lean ====
section
/-! DEFINITION. One step of the machine, and where the host places a command for the next step. -/

namespace Sys2Proof.Machine

/-- One step: the host's next action. -/
def step (s : State) : Host.Outcome State Fault Refusal := performNext s

/-- `s` with the command in the low `nbits` bits of `w` as the host's next action. -/
def State.withFetchWord (s : State) (nbits w : Nat) : State := placeCommand s nbits w

end Sys2Proof.Machine
end

