-- ==== Sys2Proof/Machine/Asm.lean ====
section
/-! DEFINITION. The host program lines of 30_encoding.md R70: their expansion to host actions, and their text. What R70 leaves
open about the text (spaces, hexadecimal letters, immediates wider than their register) is in log entry 14. -/

namespace Sys2Proof.Machine

/-- A line of a host program (R70). -/
inductive AsmLine where
  /-- `wr OPERAND, <imm64>` -/
  | wrOperand (imm : Word64)
  /-- `wr CMD, <imm16>` -/
  | wrCmd (imm : Word16)
  /-- `rd <register>` -/
  | rd (reg : Reg)
  /-- A pseudo-instruction for one command: `bsf64`, `log2_32 <F>`. -/
  | command (i : Instr)
  /-- Operand and command together: `<op> <imm64>` or `<op> <imm64>, <F>`. -/
  | commandOn (i : Instr) (imm : Word64)
  /-- `reset` -/
  | reset
deriving DecidableEq, Repr

/-- The host access that writes OPERAND. -/
def operandWrite (v : Word64) : HostAction := .write .servedHost 0 64 v

/-- The host access that reads a register at its width. -/
def regRead (reg : Reg) : HostAction := .read .servedHost reg.number reg.width

/-- The host actions a line stands for; a count F above 255 is rejected, not truncated (R70). -/
def expandLine : AsmLine → Option (List HostAction)
  | .wrOperand imm => some [operandWrite imm]
  | .wrCmd imm => some [cmdWrite imm]
  | .rd reg => some [regRead reg]
  | .command i => if i.wellFormed then some [cmdWrite (encode i)] else none
  | .commandOn i imm => if i.wellFormed then some [operandWrite imm, cmdWrite (encode i)] else none
  | .reset => some [.reset]

/-- A program, line by line; rejected when a line is. -/
def expandProgram : List AsmLine → Option (List HostAction)
  | [] => some []
  | l :: rest =>
    match expandLine l, expandProgram rest with
    | some now, some later => some (now ++ later)
    | _, _ => none

/-- Drop a comment: everything from a `;` on (R70). -/
def dropComment : List Char → List Char
  | [] => []
  | c :: rest => if c = ';' then [] else c :: dropComment rest

/-- The characters of a token read so far, in order, as a list of no or one token. -/
def flushToken (acc : List Char) : List (List Char) := if acc = [] then [] else [acc.reverse]

/-- Tokens of a line: blanks separate, a comma is a token of its own. -/
def tokens (acc : List Char) : List Char → List (List Char)
  | [] => flushToken acc
  | c :: rest =>
    if c = ' ' ∨ c = '\t' then flushToken acc ++ tokens [] rest
    else if c = ',' then flushToken acc ++ [[',']] ++ tokens [] rest
    else tokens (c :: acc) rest

/-- The value of a digit in base 10 or 16. -/
def digit (base : Nat) (c : Char) : Option Nat :=
  let n := c.toNat
  let d :=
    if 48 ≤ n ∧ n ≤ 57 then n - 48
    else if 65 ≤ n ∧ n ≤ 70 then n - 55
    else if 97 ≤ n ∧ n ≤ 102 then n - 87
    else base
  if d < base then some d else none

/-- The value of a digit string, `acc` being the value of the digits before it. -/
def digits (base acc : Nat) : List Char → Option Nat
  | [] => some acc
  | c :: rest =>
    match digit base c with
    | none => none
    | some d => digits base (acc * base + d) rest

/-- A number: decimal, or hexadecimal with a `0x` prefix (R70). -/
def number : List Char → Option Nat
  | [] => none
  | '0' :: 'x' :: c :: rest => digits 16 0 (c :: rest)
  | c :: rest => digits 10 0 (c :: rest)

/-- A number that fits `w` bits. -/
def immediate (w : Nat) (t : List Char) : Option (BitVec w) :=
  match number t with
  | none => none
  | some n => if n < 2 ^ w then some (BitVec.ofNat w n) else none

/-- The register names of R70. -/
def regNamed (t : List Char) : Option Reg :=
  if t = ['O', 'P', 'E', 'R', 'A', 'N', 'D'] then some .operand
  else if t = ['C', 'M', 'D'] then some .cmd
  else if t = ['R', 'E', 'S', 'U', 'L', 'T'] then some .result
  else if t = ['I', 'N', 'T', '_', 'P', 'A', 'R', 'T'] then some .intPart
  else if t = ['S', 'T', 'A', 'T', 'U', 'S'] then some .status
  else none

/-- The pseudo-instructions without F. -/
def plainCommand (t : List Char) : Option Instr :=
  if t = ['b', 's', 'f', '6', '4'] then some .bsf64
  else if t = ['b', 's', 'r', '6', '4'] then some .bsr64
  else if t = ['m', 's', 'b', '8'] then some .msb8
  else if t = ['m', 's', 'b', '1', '6'] then some .msb16
  else if t = ['m', 's', 'b', '3', '2'] then some .msb32
  else none

/-- The pseudo-instructions with F. -/
def fracCommand (t frac : List Char) : Option Instr :=
  match number frac with
  | none => none
  | some f =>
    if t = ['l', 'o', 'g', '2', '_', '3', '2'] then some (.log2_32 f)
    else if t = ['l', 'o', 'g', '2', '_', '6', '4'] then some (.log2_64 f)
    else none

/-- The line a token list spells. -/
def lineOfTokens : List (List Char) → Option AsmLine
  | [t] => if t = ['r', 'e', 's', 'e', 't'] then some .reset else (plainCommand t).map .command
  | [t, a] =>
    if t = ['r', 'd'] then (regNamed a).map .rd
    else
      match plainCommand t with
      | some i => (immediate 64 a).map (.commandOn i)
      | none => (fracCommand t a).map .command
  | [t, a, comma, b] =>
    if comma ≠ [','] then none
    else if t = ['w', 'r'] then
      match regNamed a with
      | some .operand => (immediate 64 b).map .wrOperand
      | some .cmd => (immediate 16 b).map .wrCmd
      | _ => none
    else
      match fracCommand t b, immediate 64 a with
      | some i, some imm => some (.commandOn i imm)
      | _, _ => none
  | _ => none

/-- The host actions of one line of text; a line with nothing but blanks and a comment stands for none. -/
def assembleLine (text : List Char) : Option (List HostAction) :=
  match tokens [] (dropComment text) with
  | [] => some []
  | ts =>
    match lineOfTokens ts with
    | none => none
    | some l => expandLine l

end Sys2Proof.Machine
end

