-- ==== Sys2Proof/Machine/Datapath.lean ====
section
/-! DEFINITION. The source's table datapaths for the scans (40_bitscan_forward.md R83, 41_msb_family.md R104, R111), over the
tables a state holds and the constants of Config. No command runs them: the rules R81, R101 to R103 and R110 give the results
(92_eei_decisions.md D26). They are here so that the tables can be shown to be the exact solution R29 asks for. -/

namespace Sys2Proof.Machine

/-- R83: isolate the lowest set bit's pattern, fold the halves, multiply, look the 6-bit key up in T_FWD. The product width and the
key's place are those of 93_implementation_defined.md section 2.1 (log entry 6). -/
def fwdDatapath (t : ConstTables) (v : Word64) : BitVec 6 :=
  let y := v ^^^ (v - 1#64)
  let folded := y.extractLsb' 0 32 ^^^ y.extractLsb' 32 32
  let key : BitVec 6 := (folded * Config.kFwd).extractLsb' 26 6
  t.fwd.get key.toFin

/-- R111: fill with six rounds, multiply, look the top 6 bits up in T_REV. -/
def revDatapath (t : ConstTables) (v : Word64) : BitVec 6 :=
  let m := fill v [1, 2, 4, 8, 16, 32]
  let key : BitVec 6 := (m * Config.kRev).extractLsb' 58 6
  t.rev.get key.toFin

/-- The fill rounds of MSB8, MSB16 and MSB32 (R104). -/
def msb8Rounds : List Nat := [1, 2, 4]
def msb16Rounds : List Nat := [1, 2, 4, 8]
def msb32Rounds : List Nat := [1, 2, 4, 8, 16]

/-- R104: fill, multiply the 32-bit zero extension, look the 5-bit key up in T_MSB. The key's place is that of
93_implementation_defined.md section 2.3 (log entry 6). -/
def msbDatapath (t : ConstTables) {w : Nat} (rounds : List Nat) (u : BitVec w) : BitVec 5 :=
  let m := (fill u rounds).setWidth 32
  let key : BitVec 5 := (m * Config.kMsb).extractLsb' 27 5
  t.msb.get key.toFin

end Sys2Proof.Machine
end

