-- ==== Sys2Proof/Machine/Platform.lean ====
section
/-! DEFINITION. What a platform around the block sees, as far as the spec says (20_memory.md R41, R42; 60_exceptions.md R177,
R181). The block itself uses none of it. -/

namespace Sys2Proof.Machine

/-- The address a platform gives a register: its base plus the register's number times the spacing (R41; log entry 13). -/
def platformAddress (reg : Reg) : Nat := Config.hostBase + Config.hostStride * reg.number

/-- The bytes of a value in a bus's order: position i carries byte `order i`, bits `[8 * order i + 7 : 8 * order i]` (R42). -/
def bytesInOrder {w n : Nat} (order : Equiv.Perm (Fin n)) (v : BitVec w) : List (BitVec 8) :=
  List.ofFn fun i => v.extractLsb' (8 * (order i).val) 8

/-- The value of bytes listed least significant first. -/
def ofBytes (w : Nat) : List (BitVec 8) → BitVec w
  | [] => 0#w
  | b :: rest => (b.setWidth w) ||| (ofBytes w rest <<< 8)

/-- The value of bytes carried in a bus's order: byte k stands at the position the order gives it (R42). A missing byte is 0. -/
def valueInOrder (w : Nat) {n : Nat} (order : Equiv.Perm (Fin n)) (bytes : List (BitVec 8)) : BitVec w :=
  ofBytes w (List.ofFn fun k => bytes.getD (order.symm k).val 0#8)

/-- How the platform's bus orders a register's bytes (R42; log entry 13). -/
def busOrder (reg : Reg) : Equiv.Perm (Fin (reg.width / 8)) := Config.busByteOrder reg.number (reg.width / 8)

/-- A register's value as the platform's byte bus carries it. -/
def busBytes (reg : Reg) (v : BitVec reg.width) : List (BitVec 8) := bytesInOrder (busOrder reg) v

/-- The value a platform assembles from the bus's bytes. -/
def fromBusBytes (reg : Reg) (bytes : List (BitVec 8)) : BitVec reg.width := valueInOrder reg.width (busOrder reg) bytes

/-- The interrupt level a platform takes from STATUS.FAULT, if it takes one (R177). -/
def faultIrqLevel (s : State) : Bool := Config.faultIrq && s.faulted

/-- Several instances of the block, each with its own registers and its own host (R181): instance `k` takes a step and the others
stay as they are. DESIGN CHOICE (log entry 18), since R181 says nothing of the joint run: where instance `k`'s own step is stuck or
refused, this step of the joint run is that fault or refusal, while a step of any other instance from the same list goes on as
its own step does; and a `k` beyond the list's end names no instance, so nothing happens. -/
def stepInstance (k : Nat) (blocks : List State) : Host.Outcome (List State) Fault Refusal :=
  match blocks[k]? with
  | none => .next blocks
  | some s =>
    match step s with
    | .next t => .next (blocks.set k t)
    | .fault e => .fault e
    | .refused e => .refused e

end Sys2Proof.Machine
end

