-- ==== Sys2Proof/Safety.lean ====
section
/-! DEFINITION. The terms claims are stated in: when a command may run, the end of a run and its observation
(70_reset_and_hazards.md R208), the invariants of the registers, and the invariant of the LOG2 loop (42_fixed_point_log2.md
R138). -/

namespace Sys2Proof.Machine

/-- A command may run on the operand `v`: no fault is recorded and OPERAND has been written (60_exceptions.md R174). -/
def Ready (s : State) (v : Word64) : Prop := s.faulted = false ∧ s.operand = .value v

/-- What an observer of a host program sees (R208). -/
structure Observation where
  reads : List Returned
  result : Contents 32
  intPart : Contents 32
  status : Word32
deriving DecidableEq, Repr

/-- The observation of a state (R208). -/
def observe (s : State) : Observation := ⟨s.returned, s.result, s.intPart, s.status⟩

/-- The host has performed its last access (R208). -/
def finished (s : State) : Bool := s.pending.isEmpty

/-- A run is good when no access was refused and FAULT = 0 at its end (R208): the host's pending accesses are all performed. -/
def GoodRun (s : State) : Prop :=
  ∃ k t, core.run k s = .next t ∧ finished t = true ∧ t.faulted = false

/-- A host program loaded into a block just reset (95_test_vectors.md section 5). -/
def loaded (program : List HostAction) : State := { State.reset with pending := program }

/-- STATUS holds a value the spec allows (10_state.md R25). -/
def StatusInv (s : State) : Prop := legalStatus s.status = true

/-- INT_PART is UNWRITTEN or in 0..63 (10_state.md R24). -/
def intPartInRange : Contents 32 → Bool
  | .unwritten => true
  | .value v => decide (v.toNat < 64)

/-- RESULT is UNWRITTEN, a bit index or fraction below 2^30, or the sentinel (10_state.md R23, 42_fixed_point_log2.md R137,
R144). -/
def resultInRange : Contents 32 → Bool
  | .unwritten => true
  | .value v => decide (v.toNat < 2 ^ 30) || v == log2Sentinel

/-- The result registers hold only values the commands can produce. -/
def ResultInv (s : State) : Prop := intPartInRange s.intPart = true ∧ resultInRange s.result = true

/-- The loop invariant of R138: `1 <= 2^n <= w <= 2^(n+1)`, and w fits the accumulator of 2H bits (R131, R139). -/
def LoopInv (half : Nat) (st : LoopState) : Prop :=
  2 ^ st.n ≤ st.w ∧ st.w ≤ 2 ^ (st.n + 1) ∧ st.w < 2 ^ (2 * half)

end Sys2Proof.Machine
end

