-- ==== Sys2Proof/Certificates/Slice0/Obligations.lean ====
section
/-! DEFINITION. The statements for the provers, each from the numbered rules of spec/. The helpers in Sys2Proof.Claims are the
statements' own words: they say what a rule says without the model's definitions. -/

namespace Sys2Proof.Claims

open Sys2Proof.Machine

/-- The logarithm's first F fractional bits, `floor(2^F * log2(v / 2^ms))` (42_fixed_point_log2.md R142, R149), ms being the index of
the highest set bit of v. -/
noncomputable def exactFraction (v f : Nat) : Int :=
  ⌊(2 : ℝ) ^ f * Real.logb 2 ((v : ℝ) / 2 ^ Nat.log2 v)⌋

/-- `INT_PART * 2^F + RESULT`: the value a LOG2 command left, scaled by 2^F (00_scope.md R11, R146). -/
def scaledValue (t : State) (f : Nat) : Option Nat :=
  match t.intPart, t.result with
  | .value i, .value r => some (i.toNat * 2 ^ f + r.toNat)
  | _, _ => none

/-- `RND(s)` of R132. -/
def rnd (mode : RenormRound) (s : Nat) : Nat := if mode = .ceil then 2 ^ s - 1 else 2 ^ (s - 1)

/-- The while loop of R132 step 1 read as a relation: from (w, n) it ends at the pair of the last two arguments. Every pass has
`s = bsr(w) − H + 1` (R134), adds without wrapping, and takes s from an n that is at least s. -/
inductive RenormLoop (mode : RenormRound) (half : Nat) : Nat → Nat → Nat → Nat → Prop
  | done (w n : Nat) : w < 2 ^ half → RenormLoop mode half w n w n
  | pass (w n s w' n' : Nat) : 2 ^ half ≤ w → s = Nat.log2 w - half + 1 → s ≤ n →
      RenormLoop mode half ((w + rnd mode s) / 2 ^ s) (n - s) w' n' → RenormLoop mode half w n w' n'

/-- `repeat F times` of R132 read as a relation: from (w, n, r) it ends with the result bits of the last argument. Nothing wraps. -/
inductive RepeatLoop (mode : RenormRound) (half : Nat) : Nat → Nat → Nat → Nat → Nat → Prop
  | done (w n r : Nat) : RepeatLoop mode half 0 w n r r
  | bitSet (k w n r w' n' out : Nat) : RenormLoop mode half w n w' n' → 2 ^ (2 * n' + 1) ≤ w' * w' →
      RepeatLoop mode half k (w' * w') (2 * n' + 1) (2 * r + 1) out → RepeatLoop mode half (k + 1) w n r out
  | bitClear (k w n r w' n' out : Nat) : RenormLoop mode half w n w' n' → w' * w' < 2 ^ (2 * n' + 1) →
      RepeatLoop mode half k (w' * w') (2 * n') (2 * r) out → RepeatLoop mode half (k + 1) w n r out

/-- `tz` is the least index of a set bit of v, `ms` the greatest (00_scope.md R12). -/
def ScanIndices (v tz ms : Nat) : Prop :=
  v.testBit tz = true ∧ (∀ j, j < tz → v.testBit j = false) ∧ v.testBit ms = true ∧ (∀ j, ms < j → v.testBit j = false)

/-- How many low bits of OPERAND a command reads (10_state.md R21). -/
def inputWidth : Instr → Nat
  | .bsf64 => 64
  | .bsr64 => 64
  | .msb8 => 16
  | .msb16 => 16
  | .msb32 => 32
  | .log2_32 _ => 32
  | .log2_64 _ => 64

/-- The command draws its RESULT on this operand: MSB8 with OPERAND[15:8] not 0 (41_msb_family.md R101, R107). -/
def Draws (i : Instr) (v : Word64) : Prop := i = .msb8 ∧ v.toNat / 2 ^ 8 % 2 ^ 8 ≠ 0

end Sys2Proof.Claims

open Sys2Proof Sys2Proof.Machine Sys2Proof.Claims

/-! ## The command word -/

/-- Every well-formed command is what its own word decodes to, with every F at every value of its field (30_encoding.md R62, R68,
R69). -/
def Obligations.DecodeOfEncode : Prop :=
  ∀ i : Instr, i.wellFormed = true → decode (encode i) = .ok i

/-- A word that decodes is the word of the command it decodes to, and that command is well formed: each legal word has one meaning
(R67, R69). -/
def Obligations.EncodeOfDecode : Prop :=
  ∀ (c : Word16) (i : Instr), decode c = .ok i → i.wellFormed = true ∧ encode i = c

/-- R64: the words that decode are exactly those with OP in 1..7, RSV = 0 and FRAC = 0 unless OP is 6 or 7, and there are 517. -/
def Obligations.DecodesExactlyTheLegalWords : Prop :=
  (∀ c : Word16, (∃ i, decode c = .ok i) ↔
    (1 ≤ c.toNat % 16 ∧ c.toNat % 16 ≤ 7) ∧ c.toNat / 16 % 16 = 0 ∧
      (c.toNat % 16 = 6 ∨ c.toNat % 16 = 7 ∨ c.toNat / 256 = 0)) ∧
  (∀ c : Word16, legal c = true ↔ ∃ i, decode c = .ok i) ∧
  (Finset.univ.filter fun c : Word16 => legal c = true).card = 517

/-- R68: the map's seven rows with their match and mask; a word decodes to the command of a row exactly when it agrees with the
row's match on the row's mask; it matches at most one row, and a word that matches none is illegal. -/
def Obligations.OpcodeMapSelectsTheCommand : Prop :=
  opcodeMap = [⟨"BSF64", 0x0001#16, 0xFFFF#16⟩, ⟨"BSR64", 0x0002#16, 0xFFFF#16⟩, ⟨"MSB8", 0x0003#16, 0xFFFF#16⟩,
    ⟨"MSB16", 0x0004#16, 0xFFFF#16⟩, ⟨"MSB32", 0x0005#16, 0xFFFF#16⟩, ⟨"LOG2_32", 0x0006#16, 0x00FF#16⟩,
    ⟨"LOG2_64", 0x0007#16, 0x00FF#16⟩] ∧
  (∀ (c : Word16) (r : OpcodeRow), r ∈ opcodeMap →
    (r.covers c = true ↔ ∃ i, decode c = .ok i ∧ i.mnemonic = r.mnemonic)) ∧
  (∀ (c : Word16) (r r' : OpcodeRow), r ∈ opcodeMap → r' ∈ opcodeMap →
    r.covers c = true → r'.covers c = true → r = r') ∧
  (∀ c : Word16, (∀ r ∈ opcodeMap, r.covers c = false) → ∃ e, decode c = .error e)

/-- The words of 95_test_vectors.md section 2.1 and the examples of 42_fixed_point_log2.md decode as listed. -/
def Obligations.ListedWordsDecode : Prop :=
  decode 0x0001#16 = .ok .bsf64 ∧ decode 0x0002#16 = .ok .bsr64 ∧ decode 0x0003#16 = .ok .msb8 ∧
  decode 0x0004#16 = .ok .msb16 ∧ decode 0x0005#16 = .ok .msb32 ∧ decode 0x0406#16 = .ok (.log2_32 4) ∧
  decode 0x0807#16 = .ok (.log2_64 8) ∧ decode 0xFF07#16 = .ok (.log2_64 255) ∧
  decode 0x0000#16 = .error .reservedOp ∧ decode 0x00F6#16 = .error .reservedBits ∧
  decode 0x0101#16 = .error .fracNotZero

/-! ## Reset -/

/-- R33, first two bullets: after reset OPERAND, CMD, RESULT and INT_PART hold UNWRITTEN and STATUS holds 0. -/
def Obligations.ResetState : Prop :=
  State.reset.operand = .unwritten ∧ State.reset.cmd = .unwritten ∧ State.reset.result = .unwritten ∧
  State.reset.intPart = .unwritten ∧ State.reset.status = 0#32

/-- R200: reset makes the four registers UNWRITTEN and STATUS 0 and changes nothing else, so the tables keep their contents; after
it the block takes commands at once: none is stuck, and a command runs as soon as OPERAND is written. That the parameter
RENORM_ROUND and the model's own fields draws, pending and returned stay as they are is the model's choice (log entry 17). -/
def Obligations.ResetAction : Prop :=
  ∀ (s : State) (rest : List HostAction), s.pending = .reset :: rest →
    step s = .next { s with
      operand := .unwritten, cmd := .unwritten, result := .unwritten, intPart := .unwritten, status := 0#32,
      pending := rest } ∧
    ∀ v : Word64, Ready { resetBlock { s with pending := rest } with operand := .value v } v

/-! ## Steps and host accesses -/

/-- A CMD write of a word that decodes to i takes the step `exec i` takes, from the state with that access taken off the host's
list; around it the step only sets CMD: where the command completes, CMD is the written word and every other field is as `exec`
left it; where it faults, CMD is unchanged too (10_state.md R22, 30_encoding.md R69; what CMD holds is the model's reading, log
entry 7). -/
def Obligations.StepRunsDecodedCommand : Prop :=
  ∀ (s : State) (c : Word16) (rest : List HostAction) (i : Instr),
    s.pending = cmdWrite c :: rest → decode c = .ok i →
    step s = mapNext (keepCommandWord c) (exec i { s with pending := rest }) ∧
    (∀ t : State, exec i { s with pending := rest } = .next t →
      (t.faulted = false → step s = .next { t with cmd := .value c }) ∧
      (t.faulted = true → step s = .next { t with cmd := s.cmd }))

/-- 20_memory.md R48: the host's actions are performed one at a time in issue order: each step that goes on takes the first one off
the list and leaves the rest. -/
def Obligations.EveryStepTakesTheNextAction : Prop :=
  ∀ s t : State, step s = .next t → t.pending = s.pending.tail

/-- R173 and R201: while FAULT = 1 no command has a step, whatever its word; OPERAND can be written, and STATUS and every written
register can be read; and no step other than reset changes STATUS. -/
def Obligations.FaultIsSticky : Prop :=
  ∀ s : State, s.faulted = true →
    (∀ i : Instr, exec i s = .fault .stuck) ∧
    (∀ (c : Word16) (rest : List HostAction), s.pending = cmdWrite c :: rest → step s = .fault .stuck) ∧
    (∀ (v : Word64) (rest : List HostAction), s.pending = operandWrite v :: rest →
      step s = .next { s with operand := .value v, pending := rest }) ∧
    (∀ rest : List HostAction, s.pending = regRead .status :: rest →
      step s = .next { s with pending := rest, returned := s.returned ++ [.status s.status] }) ∧
    (∀ (v : Word64) (rest : List HostAction), s.operand = .value v → s.pending = regRead .operand :: rest →
      step s = .next { s with pending := rest, returned := s.returned ++ [.operand v] }) ∧
    (∀ (v : Word32) (rest : List HostAction), s.result = .value v → s.pending = regRead .result :: rest →
      step s = .next { s with pending := rest, returned := s.returned ++ [.result v] }) ∧
    (∀ (v : Word32) (rest : List HostAction), s.intPart = .value v → s.pending = regRead .intPart :: rest →
      step s = .next { s with pending := rest, returned := s.returned ++ [.intPart v] }) ∧
    (∀ t : State, step s = .next t → s.pending.head? ≠ some .reset → t.status = s.status)

/-- R32: a read of RESULT or INT_PART while UNWRITTEN is refused, and so is a CMD write while OPERAND is UNWRITTEN (no fault being
recorded: R174). That a read of OPERAND while UNWRITTEN is refused too is row 26 of 93_implementation_defined.md (log entry 1). -/
def Obligations.UnwrittenIsRefused : Prop :=
  ∀ (s : State) (rest : List HostAction),
    (s.result = .unwritten → s.pending = regRead .result :: rest → step s = .refused (.readUnwritten .result)) ∧
    (s.intPart = .unwritten → s.pending = regRead .intPart :: rest → step s = .refused (.readUnwritten .intPart)) ∧
    (∀ c : Word16, s.faulted = false → s.operand = .unwritten → s.pending = cmdWrite c :: rest →
      step s = .refused .operandUnwritten) ∧
    (s.operand = .unwritten → s.pending = regRead .operand :: rest → step s = .refused (.readUnwritten .operand))

/-- R174: the order of the checks of a CMD write: the sticky fault, the UNWRITTEN OPERAND, the illegal word, the cap on F, the zero
input. -/
def Obligations.ChecksComeInOrder : Prop :=
  ∀ (s : State) (c : Word16) (rest : List HostAction), s.pending = cmdWrite c :: rest →
    (s.faulted = true → step s = .fault .stuck) ∧
    (s.faulted = false → s.operand = .unwritten → step s = .refused .operandUnwritten) ∧
    (∀ v : Word64, Ready s v →
      (legal c = false → step s = .next { s with status := 0x11#32, pending := rest }) ∧
      (∀ f, decode c = .ok (.log2_32 f) → 28 < f → step s = .next { s with status := 0x41#32, pending := rest }) ∧
      (∀ f, decode c = .ok (.log2_64 f) → 30 < f → step s = .next { s with status := 0x41#32, pending := rest }) ∧
      (decode c = .ok .bsf64 → v = 0#64 → step s = .next { s with status := 0x21#32, pending := rest }) ∧
      (decode c = .ok .bsr64 → v = 0#64 → step s = .next { s with status := 0x31#32, pending := rest }))

/-- R65: each of the three kinds of illegal word, a reserved OP, a nonzero RSV, a nonzero FRAC on an operation without F, faults
with ILLEGAL_COMMAND and does nothing else. -/
def Obligations.IllegalWordFaults : Prop :=
  ∀ (s : State) (v : Word64) (c : Word16) (rest : List HostAction), Ready s v → s.pending = cmdWrite c :: rest →
    (c.toNat % 16 = 0 ∨ 8 ≤ c.toNat % 16 ∨ c.toNat / 16 % 16 ≠ 0 ∨ (c.toNat % 16 ≤ 5 ∧ c.toNat / 256 ≠ 0)) →
    step s = .next { s with status := 0x11#32, pending := rest }

/-- A full-width read returns the register's value and changes nothing in the block; a full-width OPERAND write stores its value and
changes nothing else (20_memory.md R46, 10_state.md R31). -/
def Obligations.ReadsAndOperandWrites : Prop :=
  ∀ (s : State) (rest : List HostAction),
    (s.pending = regRead .status :: rest →
      step s = .next { s with pending := rest, returned := s.returned ++ [.status s.status] }) ∧
    (∀ v, s.operand = .value v → s.pending = regRead .operand :: rest →
      step s = .next { s with pending := rest, returned := s.returned ++ [.operand v] }) ∧
    (∀ v, s.result = .value v → s.pending = regRead .result :: rest →
      step s = .next { s with pending := rest, returned := s.returned ++ [.result v] }) ∧
    (∀ v, s.intPart = .value v → s.pending = regRead .intPart :: rest →
      step s = .next { s with pending := rest, returned := s.returned ++ [.intPart v] }) ∧
    (∀ v, s.pending = operandWrite v :: rest → step s = .next { s with operand := .value v, pending := rest })

/-- R31: a read of CMD, a write of RESULT, INT_PART or STATUS, and any access to a register number of 5 or more are refused, at any
width and with any value. -/
def Obligations.OtherAccessesRefused : Prop :=
  ∀ (s : State) (rest : List HostAction) (width : Nat) (v : BitVec width),
    (s.pending = .read .servedHost 1 width :: rest → ∃ e, step s = .refused e) ∧
    (∀ number, number = 2 ∨ number = 3 ∨ number = 4 → s.pending = .write .servedHost number width v :: rest →
      ∃ e, step s = .refused e) ∧
    (∀ number, 5 ≤ number → s.pending = .read .servedHost number width :: rest →
      step s = .refused (.noSuchRegister number)) ∧
    (∀ number, 5 ≤ number → s.pending = .write .servedHost number width v :: rest →
      step s = .refused (.noSuchRegister number))

/-- R43: an access at another width than the register's own is refused. That this comes first where the access's direction is not
allowed either, and while FAULT = 1, is the model's choice (log entry 10). -/
def Obligations.OtherWidthsRefused : Prop :=
  ∀ (s : State) (rest : List HostAction) (reg : Reg) (width : Nat) (v : BitVec width), width ≠ reg.width →
    (s.pending = .read .servedHost reg.number width :: rest → step s = .refused (.wrongWidth reg)) ∧
    (s.pending = .write .servedHost reg.number width v :: rest → step s = .refused (.wrongWidth reg))

/-- An access by a second host is refused (20_memory.md R49; the model's reading, log entry 9). -/
def Obligations.SecondHostRefused : Prop :=
  ∀ (s : State) (rest : List HostAction) (number width : Nat) (v : BitVec width),
    (s.pending = .read .otherHost number width :: rest → step s = .refused .secondHost) ∧
    (s.pending = .write .otherHost number width v :: rest → step s = .refused .secondHost)

/-- The boot order of R202 runs any command from any state: reset, write OPERAND, write CMD, and the command runs on that OPERAND
with no fault recorded. -/
def Obligations.BootOrderRunsACommand : Prop :=
  ∀ (s : State) (v : Word64) (c : Word16) (i : Instr) (rest : List HostAction), decode c = .ok i →
    s.pending = .reset :: operandWrite v :: cmdWrite c :: rest →
    Host.Core.run core 3 s =
      mapNext (keepCommandWord c) (exec i { resetBlock s with operand := .value v, pending := rest }) ∧
    Ready { resetBlock s with operand := .value v, pending := rest } v

/-- R208: a run that reaches a CMD write while FAULT = 1 never ends: no run goes past it, so it is not good. -/
def Obligations.StuckRunNeverEnds : Prop :=
  ∀ (s : State) (c : Word16) (rest : List HostAction), s.faulted = true → s.pending = cmdWrite c :: rest →
    (∀ (k : Nat) (t : State), Host.Core.run core (k + 1) s ≠ .next t) ∧ ¬ GoodRun s

/-! ## The scans -/

/-- R81: BSF64 (word 0x0001) writes the index of the lowest set bit of OPERAND to RESULT and nothing else; on 0 it faults with
BSF_ZERO. -/
def Obligations.Bsf64Meaning : Prop :=
  decode 0x0001#16 = .ok .bsf64 ∧
  ∀ (s : State) (v : Word64), Ready s v →
    (v ≠ 0#64 → ∃ k, k < 64 ∧ v.getLsbD k = true ∧ (∀ j, j < k → v.getLsbD j = false) ∧
      exec .bsf64 s = .next { s with result := .value (BitVec.ofNat 32 k) }) ∧
    (v = 0#64 → exec .bsf64 s = .next { s with status := 0x21#32 })

/-- R110: BSR64 (word 0x0002) writes the index of the highest set bit of OPERAND to RESULT and nothing else; on 0 it faults with
BSR_ZERO. -/
def Obligations.Bsr64Meaning : Prop :=
  decode 0x0002#16 = .ok .bsr64 ∧
  ∀ (s : State) (v : Word64), Ready s v →
    (v ≠ 0#64 → ∃ k, k < 64 ∧ v.getLsbD k = true ∧ (∀ j, k < j → v.getLsbD j = false) ∧
      exec .bsr64 s = .next { s with result := .value (BitVec.ofNat 32 k) }) ∧
    (v = 0#64 → exec .bsr64 s = .next { s with status := 0x31#32 })

/-- R101: MSB8 (word 0x0003) with OPERAND[15:8] = 0 writes the index of the highest set bit of the low byte, 0 for input 0; with
any of bits [15:8] set it writes the next free value, which is below 32 and otherwise unconstrained. Nothing else changes but
the model's count of draws. That the free value is Config.msb8Draw of that count, and that the count goes up by one, is the
model's choice (R107; log entry 4). -/
def Obligations.Msb8Meaning : Prop :=
  decode 0x0003#16 = .ok .msb8 ∧
  ∀ (s : State) (v : Word64), Ready s v →
    ((∀ j, j < 16 → v.getLsbD j = false) → exec .msb8 s = .next { s with result := .value 0#32 }) ∧
    (∀ k, k < 8 → v.getLsbD k = true → (∀ j, k < j → j < 16 → v.getLsbD j = false) →
      exec .msb8 s = .next { s with result := .value (BitVec.ofNat 32 k) }) ∧
    (∀ k, 8 ≤ k → k < 16 → v.getLsbD k = true →
      ∃ r, r < 32 ∧ r = (Config.msb8Draw s.draws).toNat ∧
        exec .msb8 s = .next { s with result := .value (BitVec.ofNat 32 r), draws := s.draws + 1 })

/-- R102: MSB16 (word 0x0004) writes the index of the highest set bit of OPERAND[15:0], 0 for input 0, and nothing else. -/
def Obligations.Msb16Meaning : Prop :=
  decode 0x0004#16 = .ok .msb16 ∧
  ∀ (s : State) (v : Word64), Ready s v →
    ((∀ j, j < 16 → v.getLsbD j = false) → exec .msb16 s = .next { s with result := .value 0#32 }) ∧
    (∀ k, k < 16 → v.getLsbD k = true → (∀ j, k < j → j < 16 → v.getLsbD j = false) →
      exec .msb16 s = .next { s with result := .value (BitVec.ofNat 32 k) })

/-- R103: MSB32 (word 0x0005) writes the index of the highest set bit of OPERAND[31:0], 0 for input 0, and nothing else. -/
def Obligations.Msb32Meaning : Prop :=
  decode 0x0005#16 = .ok .msb32 ∧
  ∀ (s : State) (v : Word64), Ready s v →
    ((∀ j, j < 32 → v.getLsbD j = false) → exec .msb32 s = .next { s with result := .value 0#32 }) ∧
    (∀ k, k < 32 → v.getLsbD k = true → (∀ j, k < j → j < 32 → v.getLsbD j = false) →
      exec .msb32 s = .next { s with result := .value (BitVec.ofNat 32 k) })

/-- R105: MSB8, MSB16 and MSB32 of 0 write RESULT = 0 and do not fault, and the inputs 0 and 1 give the same result. -/
def Obligations.MsbOfZeroIsZero : Prop :=
  ∀ (s : State) (v : Word64) (i : Instr), i = .msb8 ∨ i = .msb16 ∨ i = .msb32 → v = 0#64 ∨ v = 1#64 → Ready s v →
    exec i s = .next { s with result := .value 0#32 }

/-- R113: on OPERAND = 2^k both BSF64 and BSR64 write RESULT = k. -/
def Obligations.ScansAgreeOnPowersOfTwo : Prop :=
  ∀ (s : State) (k : Nat), k < 64 → Ready s (BitVec.twoPow 64 k) →
    exec .bsf64 s = .next { s with result := .value (BitVec.ofNat 32 k) } ∧
    exec .bsr64 s = .next { s with result := .value (BitVec.ofNat 32 k) }

/-! ## The logarithms -/

/-- LOG2_32 runs the algorithm of R132 with W = 32, H = 16, read as a relation with exact arithmetic: for F ≤ 28 and a nonzero
input, INT_PART is ms, RESULT is 0 for a power of two and otherwise the result bits the loop ends with, and nothing else changes
(R140). -/
def Obligations.Log2_32RunsTheAlgorithm : Prop :=
  ∀ (s : State) (v : Word64) (f : Nat), Ready s v → f ≤ 28 → v.toNat % 2 ^ 32 ≠ 0 →
    ∃ tz ms r, ScanIndices (v.toNat % 2 ^ 32) tz ms ∧ r < 2 ^ 32 ∧
      (tz = ms → r = 0) ∧
      (tz ≠ ms → RepeatLoop s.renormRound 16 f (v.toNat % 2 ^ 32 / 2 ^ tz) (ms - tz) 0 r) ∧
      exec (.log2_32 f) s =
        .next { s with intPart := .value (BitVec.ofNat 32 ms), result := .value (BitVec.ofNat 32 r) }

/-- LOG2_64 runs the algorithm of R132 with W = 64, H = 32, read as a relation with exact arithmetic: for F ≤ 30 and a nonzero
input, INT_PART is ms, RESULT is 0 for a power of two and otherwise the result bits the loop ends with, and nothing else changes
(R141). -/
def Obligations.Log2_64RunsTheAlgorithm : Prop :=
  ∀ (s : State) (v : Word64) (f : Nat), Ready s v → f ≤ 30 → v ≠ 0#64 →
    ∃ tz ms r, ScanIndices v.toNat tz ms ∧ r < 2 ^ 32 ∧
      (tz = ms → r = 0) ∧
      (tz ≠ ms → RepeatLoop s.renormRound 32 f (v.toNat / 2 ^ tz) (ms - tz) 0 r) ∧
      exec (.log2_64 f) s =
        .next { s with intPart := .value (BitVec.ofNat 32 ms), result := .value (BitVec.ofNat 32 r) }

/-- The first two checks of R133: F above the cap faults with FRAC_BITS_EXCEEDED whatever the input; with F within the cap the
input 0 gives the sentinel, writes no INT_PART and is no fault (R175). -/
def Obligations.Log2CapComesBeforeZero : Prop :=
  ∀ (s : State) (v : Word64) (f : Nat), Ready s v →
    (28 < f → exec (.log2_32 f) s = .next { s with status := 0x41#32 }) ∧
    (30 < f → exec (.log2_64 f) s = .next { s with status := 0x41#32 }) ∧
    (f ≤ 28 → v.toNat % 2 ^ 32 = 0 → exec (.log2_32 f) s = .next { s with result := .value 0xFFFFFFFF#32 }) ∧
    (f ≤ 30 → v = 0#64 → exec (.log2_64 f) s = .next { s with result := .value 0xFFFFFFFF#32 })

/-- R145: a power of two has fraction 0 and integer part k for every valid F. -/
def Obligations.Log2OfPowersOfTwo : Prop :=
  ∀ (s : State) (k f : Nat), Ready s (BitVec.twoPow 64 k) →
    (k < 64 → f ≤ 30 →
      exec (.log2_64 f) s = .next { s with intPart := .value (BitVec.ofNat 32 k), result := .value 0#32 }) ∧
    (k < 32 → f ≤ 28 →
      exec (.log2_32 f) s = .next { s with intPart := .value (BitVec.ofNat 32 k), result := .value 0#32 })

/-- R143: with F = 0 every nonzero input gives RESULT = 0 and INT_PART = bsr(v). -/
def Obligations.Log2WithoutFractionBits : Prop :=
  ∀ (s : State) (v : Word64), Ready s v →
    (v.toNat % 2 ^ 32 ≠ 0 → exec (.log2_32 0) s =
      .next { s with intPart := .value (BitVec.ofNat 32 (Nat.log2 (v.toNat % 2 ^ 32))), result := .value 0#32 }) ∧
    (v ≠ 0#64 → exec (.log2_64 0) s =
      .next { s with intPart := .value (BitVec.ofNat 32 (Nat.log2 v.toNat)), result := .value 0#32 })

/-- R137: after F iterations the result bits are below 2^F, and no bit was ever shifted out of the 32-bit register: each shift
doubles the number exactly. -/
def Obligations.FractionHasFBits : Prop :=
  ∀ (mode : RenormRound) (half : Nat) (st : LoopState) (f : Nat), f ≤ 30 → st.r = 0#32 →
    (log2Loop mode half f st).r.toNat < 2 ^ f ∧
    ∀ k, k < f → ((log2Loop mode half k st).r <<< 1).toNat = 2 * (log2Loop mode half k st).r.toNat

/-- R144: for every F within the cap and a nonzero input the fraction is below 2^30, so it is never the sentinel. -/
def Obligations.SentinelIsNoFraction : Prop :=
  ∀ (s : State) (v : Word64) (f : Nat), Ready s v →
    (f ≤ 28 → v.toNat % 2 ^ 32 ≠ 0 → ∃ t r, exec (.log2_32 f) s = .next t ∧ t.result = .value r ∧
      r.toNat < 2 ^ 30 ∧ r ≠ 0xFFFFFFFF#32) ∧
    (f ≤ 30 → v ≠ 0#64 → ∃ t r, exec (.log2_64 f) s = .next t ∧ t.result = .value r ∧
      r.toNat < 2 ^ 30 ∧ r ≠ 0xFFFFFFFF#32)

/-- R138: the loop invariant holds after the set-up of any nonzero input, after every pass and after every iteration, and after a
pass n is H − 1 or H − 2. -/
def Obligations.LoopInvariantKept : Prop :=
  ∀ (mode : RenormRound) (half : Nat), 2 ≤ half →
    (∀ v : BitVec (2 * half), v ≠ 0#(2 * half) → LoopInv half (log2Init v)) ∧
    (∀ st : LoopState, LoopInv half st →
      (2 ^ half ≤ st.w → LoopInv half (renormPass mode half st) ∧
        ((renormPass mode half st).n = half - 1 ∨ (renormPass mode half st).n = half - 2)) ∧
      LoopInv half (renormalise mode half st) ∧ LoopInv half (log2Iteration mode half st))

/-- R139: under the loop invariant the renormalise step ends after at most two passes, every rounding sum is below 2^(W+1), every
square below 2^W, and n is at most W − 2 when the extract step tests it and at most W − 1 after it (W = 2H). -/
def Obligations.LoopBounds : Prop :=
  ∀ (mode : RenormRound) (half : Nat) (st : LoopState), 2 ≤ half → LoopInv half st →
    (renormalise mode half st).w < 2 ^ half ∧
    (∀ passes, 2 ≤ passes → renormWhile mode half passes st = renormalise mode half st) ∧
    (2 ^ half ≤ st.w → st.w + roundAddend mode (renormShift half st.w) < 2 ^ (2 * half + 1)) ∧
    (renormalise mode half st).w * (renormalise mode half st).w < 2 ^ (2 * half) ∧
    2 * (renormalise mode half st).n ≤ 2 * half - 2 ∧
    (log2Iteration mode half st).n ≤ 2 * half - 1

/-- R135: after the renormalise step the square is below 2^W, so a wrapping multiply of W bits gives the same value. -/
def Obligations.SquareNeverWraps : Prop :=
  ∀ (mode : RenormRound) (half : Nat) (st : LoopState), 2 ≤ half → LoopInv half st →
    (renormalise mode half st).w < 2 ^ half ∧
    (renormalise mode half st).w * (renormalise mode half st).w % 2 ^ (2 * half) =
      (renormalise mode half st).w * (renormalise mode half st).w

/-- R134: a pass shifts by bsr(w) − H + 1, which the count can bear, and rounds w / 2^s up under CEIL and to the nearest, halves up,
under HALF_UP, with nothing lost to a wrap. -/
def Obligations.PassRoundsExactly : Prop :=
  ∀ (half : Nat) (st : LoopState), 2 ≤ half → LoopInv half st → 2 ^ half ≤ st.w →
    ∃ s, s = Nat.log2 st.w - half + 1 ∧ s ≤ st.n ∧
      (∀ mode, (renormPass mode half st).n = st.n - s) ∧
      (st.w ≤ 2 ^ s * (renormPass .ceil half st).w ∧ 2 ^ s * (renormPass .ceil half st).w < st.w + 2 ^ s) ∧
      (2 ^ (s + 1) * (renormPass .halfUp half st).w ≤ 2 * st.w + 2 ^ s ∧
        2 * st.w + 2 ^ s < 2 ^ (s + 1) * ((renormPass .halfUp half st).w + 1))

/-- R146: for 0 < a < b the combined value of a is not above that of b, for both commands, every F within the cap and both values of
RENORM_ROUND. -/
def Obligations.Log2IsMonotone : Prop :=
  ∀ (s : State) (a b : Word64) (f : Nat), s.faulted = false →
    (f ≤ 28 → 0 < a.toNat % 2 ^ 32 → a.toNat % 2 ^ 32 < b.toNat % 2 ^ 32 →
      ∃ ta tb x y, exec (.log2_32 f) { s with operand := .value a } = .next ta ∧
        exec (.log2_32 f) { s with operand := .value b } = .next tb ∧
        scaledValue ta f = some x ∧ scaledValue tb f = some y ∧ x ≤ y) ∧
    (f ≤ 30 → 0 < a.toNat → a.toNat < b.toNat →
      ∃ ta tb x y, exec (.log2_64 f) { s with operand := .value a } = .next ta ∧
        exec (.log2_64 f) { s with operand := .value b } = .next tb ∧
        scaledValue ta f = some x ∧ scaledValue tb f = some y ∧ x ≤ y)

/-- R149: under CEIL the fraction is never below the exact value `floor(2^F * log2(v / 2^ms))`. -/
def Obligations.CeilIsNeverBelowTheExactValue : Prop :=
  ∀ (s : State) (v : Word64) (f : Nat), Ready s v → s.renormRound = .ceil →
    (f ≤ 28 → v.toNat % 2 ^ 32 ≠ 0 → ∃ t r, exec (.log2_32 f) s = .next t ∧ t.result = .value r ∧
      exactFraction (v.toNat % 2 ^ 32) f ≤ (r.toNat : Int)) ∧
    (f ≤ 30 → v ≠ 0#64 → ∃ t r, exec (.log2_64 f) s = .next t ∧ t.result = .value r ∧
      exactFraction v.toNat f ≤ (r.toNat : Int))

/-- R142: when no renormalisation pass runs during the F iterations, the command completes and leaves RESULT exactly
`floor(2^F * log2(v / 2^ms))`, under both values of RENORM_ROUND. That a pass would run is w ≥ 2^H at the head of an iteration
(R132 step 1). -/
def Obligations.ExactWithoutRenormalisation : Prop :=
  ∀ (s : State) (v : Word64) (f : Nat), Ready s v →
    (f ≤ 28 → v.toNat % 2 ^ 32 ≠ 0 →
      (∀ k, k < f → (log2Loop s.renormRound 16 k (log2Init (input32 v))).w < 2 ^ 16) →
      ∃ i r, exec (.log2_32 f) s = .next { s with intPart := .value i, result := .value r } ∧
        (r.toNat : Int) = exactFraction (v.toNat % 2 ^ 32) f) ∧
    (f ≤ 30 → v ≠ 0#64 →
      (∀ k, k < f → (log2Loop s.renormRound 32 k (log2Init (input64 v))).w < 2 ^ 32) →
      ∃ i r, exec (.log2_64 f) s = .next { s with intPart := .value i, result := .value r } ∧
        (r.toNat : Int) = exactFraction v.toNat f)

/-- The error-bound scenario of R147: with F = 16 and 256 ≤ v < 512 read as v/256, LOG2_32's value differs from log2(v/256) by less
than 1e-4, under both values of RENORM_ROUND. -/
def Obligations.ErrorBoundScenario : Prop :=
  ∀ (s : State) (v : Word64), Ready s v → 256 ≤ v.toNat → v.toNat < 512 →
    ∃ i r : Word32, exec (.log2_32 16) s = .next { s with intPart := .value i, result := .value r } ∧
      |((i.toNat : ℝ) - 8 + (r.toNat : ℝ) / 2 ^ 16) - Real.logb 2 ((v.toNat : ℝ) / 256)| < 1 / 10000

/-- R150: INT_PART is floor(log2 v) for every nonzero input, for both commands, and that floor is the index of the highest set
bit. -/
def Obligations.IntPartIsFloorOfLog2 : Prop :=
  ∀ (s : State) (v : Word64) (f : Nat), Ready s v →
    (f ≤ 28 → v.toNat % 2 ^ 32 ≠ 0 → ∃ t i, exec (.log2_32 f) s = .next t ∧ t.intPart = .value i ∧
      (i.toNat : Int) = ⌊Real.logb 2 ((v.toNat % 2 ^ 32 : Nat) : ℝ)⌋ ∧ i.toNat = bsr (input32 v)) ∧
    (f ≤ 30 → v ≠ 0#64 → ∃ t i, exec (.log2_64 f) s = .next t ∧ t.intPart = .value i ∧
      (i.toNat : Int) = ⌊Real.logb 2 (v.toNat : ℝ)⌋ ∧ i.toNat = bsr (input64 v))

/-- R148: a LOG2 command's RESULT and INT_PART are a function of its input, F and RENORM_ROUND alone: in any two states that agree
on these it writes the same values. -/
def Obligations.Log2IsAFunctionOfItsInput : Prop :=
  ∀ (s s' : State) (v v' : Word64) (f : Nat), Ready s v → Ready s' v' → s.renormRound = s'.renormRound →
    (f ≤ 28 → v.toNat % 2 ^ 32 = v'.toNat % 2 ^ 32 → v.toNat % 2 ^ 32 ≠ 0 → ∃ i r,
      exec (.log2_32 f) s = .next { s with intPart := .value i, result := .value r } ∧
      exec (.log2_32 f) s' = .next { s' with intPart := .value i, result := .value r }) ∧
    (f ≤ 30 → v = v' → v ≠ 0#64 → ∃ i r,
      exec (.log2_64 f) s = .next { s with intPart := .value i, result := .value r } ∧
      exec (.log2_64 f) s' = .next { s' with intPart := .value i, result := .value r })

/-! ## Faults, frames and invariants -/

/-- R172: a fault writes `(CAUSE << 4) OR 1` to STATUS and nothing else: whenever a CMD write leaves FAULT = 1, the state differs only
in STATUS, which holds one of the four fault values. -/
def Obligations.FaultsArePrecise : Prop :=
  ∀ (s t : State) (c : Word16) (rest : List HostAction), s.pending = cmdWrite c :: rest → step s = .next t →
    t.faulted = true →
    ∃ code : Nat, 1 ≤ code ∧ code ≤ 4 ∧
      t = { s with status := BitVec.ofNat 32 code <<< 4 ||| 1#32, pending := rest }

/-- R25: what a legal STATUS value is, field by field: bits [3:1] and [31:8] are 0, CAUSE is at most 4, and CAUSE is 0 exactly when
FAULT is 0. -/
def Obligations.LegalStatusFields : Prop :=
  ∀ st : Word32, legalStatus st = true ↔
    (st.toNat / 2 % 8 = 0 ∧ st.toNat / 256 = 0 ∧ st.toNat / 16 % 16 ≤ 4 ∧ (st.toNat / 16 % 16 = 0 ↔ st.toNat % 2 = 0))

/-- Every step keeps STATUS at a value the spec allows, in any state, reachable or not (R25, R171). -/
def Obligations.StatusStaysLegal : Prop :=
  ∀ s t : State, StatusInv s → step s = .next t → StatusInv t

/-- Every step keeps INT_PART UNWRITTEN or in 0..63 and RESULT UNWRITTEN, below 2^30 or the sentinel (R23, R24, R144). -/
def Obligations.ResultRegistersStayInRange : Prop :=
  ∀ s t : State, ResultInv s → step s = .next t → ResultInv t

/-- The invariants hold at reset. -/
def Obligations.ResetMeetsTheInvariants : Prop :=
  StatusInv State.reset ∧ ResultInv State.reset

/-- R29: no command and no host access writes a constant table; the parameter RENORM_ROUND does not change either. -/
def Obligations.TablesNeverChange : Prop :=
  ∀ s t : State, step s = .next t → t.tables = s.tables ∧ t.renormRound = s.renormRound

/-- The frame of every command (R35): a command that goes on never changes OPERAND, CMD, the tables, the parameter or the host's
lists; when STATUS changes nothing else does; only the LOG2 commands write INT_PART, and not on input 0; only MSB8 draws; the
MSB commands never fault. -/
def Obligations.CommandFrame : Prop :=
  ∀ (i : Instr) (s t : State), exec i s = .next t →
    (t.operand = s.operand ∧ t.cmd = s.cmd ∧ t.tables = s.tables ∧ t.renormRound = s.renormRound ∧
      t.pending = s.pending ∧ t.returned = s.returned) ∧
    (t.status ≠ s.status → t = { s with status := t.status }) ∧
    (i = .bsf64 ∨ i = .bsr64 → t.intPart = s.intPart ∧ t.draws = s.draws) ∧
    (i = .msb16 ∨ i = .msb32 → t.intPart = s.intPart ∧ t.draws = s.draws ∧ t.status = s.status) ∧
    (i = .msb8 → t.intPart = s.intPart ∧ t.status = s.status) ∧
    (∀ f, i = .log2_32 f → t.draws = s.draws ∧ (f ≤ 28 → t.status = s.status)) ∧
    (∀ f, i = .log2_64 f → t.draws = s.draws ∧ (f ≤ 30 → t.status = s.status)) ∧
    (∀ f v, i = .log2_32 f → s.operand = .value v → v.toNat % 2 ^ 32 = 0 → t.intPart = s.intPart) ∧
    (∀ f, i = .log2_64 f → s.operand = .value 0#64 → t.intPart = s.intPart)

/-- R21: a command reads only the low bits of OPERAND of its input width, and does not change OPERAND: two operands that agree on
those bits give the same answer, but for OPERAND itself. Where MSB8 draws (R107), nothing is said of how the two drawn results
relate: they answer alike but for RESULT, which is below 32 on both sides (the count of draws is the model's, log entry 4). -/
def Obligations.UpperOperandBitsIgnored : Prop :=
  ∀ (i : Instr) (s : State) (v v' : Word64), v.toNat % 2 ^ inputWidth i = v'.toNat % 2 ^ inputWidth i →
    (¬ Draws i v → exec i { s with operand := .value v' } =
      mapNext (fun t => { t with operand := .value v' }) (exec i { s with operand := .value v })) ∧
    (Draws i v → ∃ r r' : Word32, r.toNat < 32 ∧ r'.toNat < 32 ∧
      exec i { s with operand := .value v' } =
        mapNext (fun t => { t with operand := .value v', result := .value r' }) (exec i { s with operand := .value v }) ∧
      ∀ t, exec i { s with operand := .value v } = .next t → t.result = .value r) ∧
    ∀ t, exec i { s with operand := .value v } = .next t → t.operand = .value v

/-- R34: no command reads RESULT, INT_PART or CMD: changing what they hold changes only what the command leaves unwritten. Where
MSB8 draws (R107), nothing is said of how the two drawn results relate: both are below 32 (the count of draws is the model's, log
entry 4). -/
def Obligations.EarlierResultsAreNotRead : Prop :=
  ∀ (i : Instr) (s : State) (x y : Contents 32) (z : Contents 16),
    (∀ e, exec i s = .fault e → exec i { s with result := x, intPart := y, cmd := z } = .fault e) ∧
    (∀ e, exec i s = .refused e → exec i { s with result := x, intPart := y, cmd := z } = .refused e) ∧
    (∀ t, exec i s = .next t →
      ∃ a b, exec i { s with result := x, intPart := y, cmd := z } = .next { t with result := a, intPart := b, cmd := z } ∧
        (∀ v, s.operand = .value v → ¬ Draws i v → a = t.result ∨ (t.result = s.result ∧ a = x)) ∧
        (∀ v, s.operand = .value v → Draws i v →
          ∃ r r' : Word32, t.result = .value r ∧ a = .value r' ∧ r.toNat < 32 ∧ r'.toNat < 32) ∧
        (b = t.intPart ∨ (t.intPart = s.intPart ∧ b = y)))

/-! ## The constant tables -/

/-- The forward datapath of 40_bitscan_forward.md R83 over the tables of reset gives bsf(v) for every nonzero v: T_FWD is the exact
solution R29 asks for. The constant and contents are the model's (PRESUMED, log entry 6). -/
def Obligations.ForwardTableIsExact : Prop :=
  ∀ v : Word64, v ≠ 0#64 → (fwdDatapath State.reset.tables v).toNat = bsf v

/-- The reverse datapath of 41_msb_family.md R111 over the tables of reset gives bsr(v) for every nonzero v. The constant and
contents are the model's (PRESUMED, log entry 6). -/
def Obligations.ReverseTableIsExact : Prop :=
  ∀ v : Word64, v ≠ 0#64 → (revDatapath State.reset.tables v).toNat = bsr v

/-- The 32-entry datapath of 41_msb_family.md R104 over the tables of reset gives the results of R101 to R103: for every 32-bit
input, every 16-bit input with four rounds, and every input below 2^8 with three. The constant and contents are the model's
(PRESUMED, log entry 6). -/
def Obligations.MsbTableIsExact : Prop :=
  (∀ u : BitVec 32, (msbDatapath State.reset.tables msb32Rounds u).toNat = msbIndex u) ∧
  (∀ u : BitVec 16, (msbDatapath State.reset.tables msb16Rounds u).toNat = msbIndex u) ∧
  (∀ u : BitVec 16, u.toNat < 256 → (msbDatapath State.reset.tables msb8Rounds u).toNat = msbIndex u)

/-- R100: with enough rounds for the width, fill(u) is 2^(bsr(u)+1) − 1 for a nonzero u and 0 for 0. -/
def Obligations.FillMakesOnes : Prop :=
  ∀ (w m : Nat) (u : BitVec w), w ≤ 2 * 2 ^ m →
    (u ≠ 0#w → (fill u ((List.range (m + 1)).map (2 ^ ·))).toNat = 2 ^ (bsr u + 1) - 1) ∧
    (u = 0#w → fill u ((List.range (m + 1)).map (2 ^ ·)) = 0#w)

/-! ## Host programs and platforms -/

/-- R70: what each line expands to; a count above 255 is rejected. -/
def Obligations.AssemblerExpansions : Prop :=
  (∀ imm, expandLine (.wrOperand imm) = some [.write .servedHost 0 64 imm]) ∧
  (∀ imm, expandLine (.wrCmd imm) = some [.write .servedHost 1 16 imm]) ∧
  expandLine (.rd .result) = some [.read .servedHost 2 32] ∧
  expandLine (.rd .intPart) = some [.read .servedHost 3 32] ∧
  expandLine (.rd .status) = some [.read .servedHost 4 32] ∧
  expandLine (.rd .operand) = some [.read .servedHost 0 64] ∧
  expandLine (.command .bsf64) = some [.write .servedHost 1 16 0x0001#16] ∧
  expandLine (.command .bsr64) = some [.write .servedHost 1 16 0x0002#16] ∧
  expandLine (.command .msb8) = some [.write .servedHost 1 16 0x0003#16] ∧
  expandLine (.command .msb16) = some [.write .servedHost 1 16 0x0004#16] ∧
  expandLine (.command .msb32) = some [.write .servedHost 1 16 0x0005#16] ∧
  (∀ f, f ≤ 255 → expandLine (.command (.log2_32 f)) =
    some [.write .servedHost 1 16 (BitVec.ofNat 16 f <<< 8 ||| 0x0006#16)]) ∧
  (∀ f, f ≤ 255 → expandLine (.command (.log2_64 f)) =
    some [.write .servedHost 1 16 (BitVec.ofNat 16 f <<< 8 ||| 0x0007#16)]) ∧
  (∀ f, 255 < f → expandLine (.command (.log2_32 f)) = none ∧ expandLine (.command (.log2_64 f)) = none) ∧
  (∀ i imm, i.wellFormed = true → expandLine (.commandOn i imm) =
    some [.write .servedHost 0 64 imm, .write .servedHost 1 16 (encode i)]) ∧
  (∀ i imm, i.wellFormed = false → expandLine (.commandOn i imm) = none) ∧
  expandLine .reset = some [.reset]

/-- A platform that cuts a register into bytes in its bus's order and puts them together again has the register's value, whichever
order the open parameter BUS_BYTE_ORDER is; each position of the bus carries one whole byte of the register (20_memory.md R42;
log entry 13). -/
def Obligations.BusBytesKeepTheValue : Prop :=
  ∀ (reg : Reg) (v : BitVec reg.width),
    fromBusBytes reg (busBytes reg v) = v ∧
    (busBytes reg v).length = reg.width / 8 ∧
    ∀ i : Fin (reg.width / 8), (busBytes reg v)[i.val]? = some (v.extractLsb' (8 * (busOrder reg i).val) 8)

/-- Instances of the block share no mutable state (60_exceptions.md R181): a step of instance k leaves every other instance as it is
and takes instance k where its own step takes it, whatever the others hold. -/
def Obligations.InstancesAreIndependent : Prop :=
  ∀ (k : Nat) (blocks : List State) (s t : State), blocks[k]? = some s → step s = .next t →
    ∃ after, stepInstance k blocks = .next after ∧ after[k]? = some t ∧ after.length = blocks.length ∧
      ∀ j, j ≠ k → after[j]? = blocks[j]?
end

