-- ==== Sys2Proof/Laws/Bits.lean ====
section
/-! SUPPORT. What the bit scans return on a nonzero value (00_scope.md R12), and that nothing else does. -/

namespace Sys2Proof.Machine

variable {w : Nat}

theorem lowestBelow_le (v : BitVec w) (n : Nat) : lowestBelow v n ≤ n := by
  induction n with
  | zero => simp [lowestBelow]
  | succ n ih => unfold lowestBelow; split_ifs <;> omega

/-- Every bit below the index a scan from below returns is clear. -/
theorem getLsbD_of_lt_lowestBelow (v : BitVec w) (n j : Nat) (h : j < lowestBelow v n) :
    v.getLsbD j = false := by
  induction n with
  | zero => simp [lowestBelow] at h
  | succ n ih =>
    have hle := lowestBelow_le v n
    unfold lowestBelow at h
    split_ifs at h with h1 h2
    · exact ih h
    · exact ih (by omega)
    · rcases Nat.lt_or_eq_of_le (Nat.lt_succ_iff.mp h) with hj | rfl
      · exact ih (by omega)
      · simpa using h2

/-- The index a scan from below returns is set, if it is below the limit. -/
theorem getLsbD_lowestBelow (v : BitVec w) (n : Nat) (h : lowestBelow v n < n) :
    v.getLsbD (lowestBelow v n) = true := by
  induction n with
  | zero => simp at h
  | succ n ih =>
    unfold lowestBelow at h ⊢
    split_ifs at h ⊢ with h1 h2
    · exact ih h1
    · exact h2
    · omega

/-- A scan from above returns a set bit, and every bit above it and below the limit is clear. -/
theorem highestBelow_spec (v : BitVec w) (n k : Nat) (hk : k < n) (hv : v.getLsbD k = true) :
    highestBelow v n < n ∧ v.getLsbD (highestBelow v n) = true ∧
      ∀ j, highestBelow v n < j → j < n → v.getLsbD j = false := by
  induction n with
  | zero => omega
  | succ n ih =>
    unfold highestBelow
    split_ifs with h
    · exact ⟨by omega, h, fun j h1 h2 => by omega⟩
    · have hkn : k < n := by
        rcases Nat.lt_or_eq_of_le (Nat.lt_succ_iff.mp hk) with hlt | rfl
        · exact hlt
        · exact absurd hv h
      obtain ⟨h1, h2, h3⟩ := ih hkn
      refine ⟨by omega, h2, fun j hj hjn => ?_⟩
      rcases Nat.lt_or_eq_of_le (Nat.lt_succ_iff.mp hjn) with hlt | rfl
      · exact h3 j hj hlt
      · simpa using h

/-- A nonzero value has a set bit. -/
theorem exists_getLsbD_of_ne_zero {v : BitVec w} (h : v ≠ 0#w) : ∃ k, k < w ∧ v.getLsbD k = true := by
  by_contra hc
  push Not at hc
  apply h
  apply BitVec.eq_of_getLsbD_eq
  intro i hi
  simpa using hc i hi

/-- `bsf` of a nonzero value is the least index of a set bit. -/
theorem bsf_spec {v : BitVec w} (h : v ≠ 0#w) :
    bsf v < w ∧ v.getLsbD (bsf v) = true ∧ ∀ j, j < bsf v → v.getLsbD j = false := by
  obtain ⟨k, hk, hv⟩ := exists_getLsbD_of_ne_zero h
  have hlt : lowestBelow v w < w := by
    by_contra hge
    have := getLsbD_of_lt_lowestBelow v w k (by omega)
    rw [hv] at this
    exact absurd this (by decide)
  exact ⟨hlt, getLsbD_lowestBelow v w hlt, fun j hj => getLsbD_of_lt_lowestBelow v w j hj⟩

/-- `bsr` of a nonzero value is the greatest index of a set bit. -/
theorem bsr_spec {v : BitVec w} (h : v ≠ 0#w) :
    bsr v < w ∧ v.getLsbD (bsr v) = true ∧ ∀ j, bsr v < j → v.getLsbD j = false := by
  obtain ⟨k, hk, hv⟩ := exists_getLsbD_of_ne_zero h
  obtain ⟨h1, h2, h3⟩ := highestBelow_spec v w k hk hv
  refine ⟨h1, h2, fun j hj => ?_⟩
  rcases Nat.lt_or_ge j w with hjw | hjw
  · exact h3 j hj hjw
  · simp [BitVec.getLsbD_of_ge, hjw]

/-- `bsf` is the only index with its property. -/
theorem bsf_unique {v : BitVec w} {k : Nat} (hk : v.getLsbD k = true) (hl : ∀ j, j < k → v.getLsbD j = false) :
    bsf v = k := by
  have hv : v ≠ 0#w := by rintro rfl; simp at hk
  obtain ⟨-, h2, h3⟩ := bsf_spec hv
  rcases Nat.lt_trichotomy (bsf v) k with h | h | h
  · rw [hl _ h] at h2; cases h2
  · exact h
  · rw [h3 _ h] at hk; cases hk

/-- `bsr` is the only index with its property. -/
theorem bsr_unique {v : BitVec w} {k : Nat} (hk : v.getLsbD k = true) (hl : ∀ j, k < j → v.getLsbD j = false) :
    bsr v = k := by
  have hv : v ≠ 0#w := by rintro rfl; simp at hk
  obtain ⟨-, h2, h3⟩ := bsr_spec hv
  rcases Nat.lt_trichotomy (bsr v) k with h | h | h
  · rw [h3 _ h] at hk; cases hk
  · exact h
  · rw [hl _ h] at h2; cases h2

/-- The least set bit is not above the greatest. -/
theorem bsf_le_bsr {v : BitVec w} (h : v ≠ 0#w) : bsf v ≤ bsr v := by
  by_contra hlt
  have h1 := (bsf_spec h).2.2 (bsr v) (by omega)
  rw [(bsr_spec h).2.1] at h1
  exact absurd h1 (by decide)

/-- The index of the highest set bit, as bounds on the value. -/
theorem bsr_bounds {v : BitVec w} (h : v ≠ 0#w) : 2 ^ bsr v ≤ v.toNat ∧ v.toNat < 2 ^ (bsr v + 1) := by
  obtain ⟨_, h2, h3⟩ := bsr_spec h
  constructor
  · exact Nat.ge_two_pow_of_testBit (by simpa [BitVec.getLsbD] using h2)
  · apply Nat.lt_pow_two_of_testBit
    intro i hi
    simpa [BitVec.getLsbD] using h3 i (by omega)

/-- `bsr` of a nonzero value is its base-2 logarithm, rounded down. -/
theorem bsr_eq_log2 {v : BitVec w} (h : v ≠ 0#w) : bsr v = Nat.log2 v.toNat := by
  have hv : v.toNat ≠ 0 := fun h0 => h (BitVec.eq_of_toNat_eq (by simpa using h0))
  exact ((Nat.log2_eq_iff hv).mpr (bsr_bounds h)).symm

/-- The MSB16 and MSB32 functions never reach their width. -/
theorem msbIndex_lt (u : BitVec w) (hw : 0 < w) : msbIndex u < w := by
  unfold msbIndex
  split_ifs with h
  · exact hw
  · exact (bsr_spec h).1

theorem msbIndex_of_ne_zero {u : BitVec w} (h : u ≠ 0#w) : msbIndex u = bsr u := if_neg h

@[simp] theorem msbIndex_zero : msbIndex (0#w) = 0 := if_pos rfl

end Sys2Proof.Machine
end

