-- ==== Sys2Proof/Laws/State.lean ====
section
/-! SUPPORT. One lemma per field and update of State, so that no proof unfolds a record update. -/

namespace Sys2Proof.Machine

@[simp] theorem writeResult_operand (v : Word32) (s : State) : (writeResult v s).operand = s.operand := rfl
@[simp] theorem writeResult_cmd (v : Word32) (s : State) : (writeResult v s).cmd = s.cmd := rfl
@[simp] theorem writeResult_result (v : Word32) (s : State) : (writeResult v s).result = .value v := rfl
@[simp] theorem writeResult_intPart (v : Word32) (s : State) : (writeResult v s).intPart = s.intPart := rfl
@[simp] theorem writeResult_status (v : Word32) (s : State) : (writeResult v s).status = s.status := rfl
@[simp] theorem writeResult_tables (v : Word32) (s : State) : (writeResult v s).tables = s.tables := rfl
@[simp] theorem writeResult_renormRound (v : Word32) (s : State) : (writeResult v s).renormRound = s.renormRound := rfl
@[simp] theorem writeResult_draws (v : Word32) (s : State) : (writeResult v s).draws = s.draws := rfl
@[simp] theorem writeResult_pending (v : Word32) (s : State) : (writeResult v s).pending = s.pending := rfl
@[simp] theorem writeResult_returned (v : Word32) (s : State) : (writeResult v s).returned = s.returned := rfl

@[simp] theorem writeIntPart_operand (v : Word32) (s : State) : (writeIntPart v s).operand = s.operand := rfl
@[simp] theorem writeIntPart_cmd (v : Word32) (s : State) : (writeIntPart v s).cmd = s.cmd := rfl
@[simp] theorem writeIntPart_result (v : Word32) (s : State) : (writeIntPart v s).result = s.result := rfl
@[simp] theorem writeIntPart_intPart (v : Word32) (s : State) : (writeIntPart v s).intPart = .value v := rfl
@[simp] theorem writeIntPart_status (v : Word32) (s : State) : (writeIntPart v s).status = s.status := rfl
@[simp] theorem writeIntPart_tables (v : Word32) (s : State) : (writeIntPart v s).tables = s.tables := rfl
@[simp] theorem writeIntPart_renormRound (v : Word32) (s : State) : (writeIntPart v s).renormRound = s.renormRound := rfl
@[simp] theorem writeIntPart_draws (v : Word32) (s : State) : (writeIntPart v s).draws = s.draws := rfl
@[simp] theorem writeIntPart_pending (v : Word32) (s : State) : (writeIntPart v s).pending = s.pending := rfl
@[simp] theorem writeIntPart_returned (v : Word32) (s : State) : (writeIntPart v s).returned = s.returned := rfl

@[simp] theorem writeIndex_operand (k : Nat) (s : State) : (writeIndex k s).operand = s.operand := rfl
@[simp] theorem writeIndex_cmd (k : Nat) (s : State) : (writeIndex k s).cmd = s.cmd := rfl
@[simp] theorem writeIndex_result (k : Nat) (s : State) : (writeIndex k s).result = .value (BitVec.ofNat 32 k) := rfl
@[simp] theorem writeIndex_intPart (k : Nat) (s : State) : (writeIndex k s).intPart = s.intPart := rfl
@[simp] theorem writeIndex_status (k : Nat) (s : State) : (writeIndex k s).status = s.status := rfl
@[simp] theorem writeIndex_tables (k : Nat) (s : State) : (writeIndex k s).tables = s.tables := rfl
@[simp] theorem writeIndex_renormRound (k : Nat) (s : State) : (writeIndex k s).renormRound = s.renormRound := rfl
@[simp] theorem writeIndex_draws (k : Nat) (s : State) : (writeIndex k s).draws = s.draws := rfl
@[simp] theorem writeIndex_pending (k : Nat) (s : State) : (writeIndex k s).pending = s.pending := rfl
@[simp] theorem writeIndex_returned (k : Nat) (s : State) : (writeIndex k s).returned = s.returned := rfl

@[simp] theorem drawResult_operand (s : State) : (drawResult s).operand = s.operand := rfl
@[simp] theorem drawResult_cmd (s : State) : (drawResult s).cmd = s.cmd := rfl
@[simp] theorem drawResult_result (s : State) : (drawResult s).result = .value ((Config.msb8Draw s.draws).setWidth 32) := rfl
@[simp] theorem drawResult_intPart (s : State) : (drawResult s).intPart = s.intPart := rfl
@[simp] theorem drawResult_status (s : State) : (drawResult s).status = s.status := rfl
@[simp] theorem drawResult_tables (s : State) : (drawResult s).tables = s.tables := rfl
@[simp] theorem drawResult_renormRound (s : State) : (drawResult s).renormRound = s.renormRound := rfl
@[simp] theorem drawResult_draws (s : State) : (drawResult s).draws = s.draws + 1 := rfl
@[simp] theorem drawResult_pending (s : State) : (drawResult s).pending = s.pending := rfl
@[simp] theorem drawResult_returned (s : State) : (drawResult s).returned = s.returned := rfl

@[simp] theorem resetBlock_operand (s : State) : (resetBlock s).operand = .unwritten := rfl
@[simp] theorem resetBlock_cmd (s : State) : (resetBlock s).cmd = .unwritten := rfl
@[simp] theorem resetBlock_result (s : State) : (resetBlock s).result = .unwritten := rfl
@[simp] theorem resetBlock_intPart (s : State) : (resetBlock s).intPart = .unwritten := rfl
@[simp] theorem resetBlock_status (s : State) : (resetBlock s).status = 0#32 := rfl
@[simp] theorem resetBlock_tables (s : State) : (resetBlock s).tables = s.tables := rfl
@[simp] theorem resetBlock_renormRound (s : State) : (resetBlock s).renormRound = s.renormRound := rfl
@[simp] theorem resetBlock_draws (s : State) : (resetBlock s).draws = s.draws := rfl
@[simp] theorem resetBlock_pending (s : State) : (resetBlock s).pending = s.pending := rfl
@[simp] theorem resetBlock_returned (s : State) : (resetBlock s).returned = s.returned := rfl

@[simp] theorem writeResult_faulted (v : Word32) (s : State) : (writeResult v s).faulted = s.faulted := rfl
@[simp] theorem writeIntPart_faulted (v : Word32) (s : State) : (writeIntPart v s).faulted = s.faulted := rfl
@[simp] theorem writeIndex_faulted (k : Nat) (s : State) : (writeIndex k s).faulted = s.faulted := rfl
@[simp] theorem drawResult_faulted (s : State) : (drawResult s).faulted = s.faulted := rfl
@[simp] theorem resetBlock_faulted (s : State) : (resetBlock s).faulted = false := by
  show faultBit 0#32 = false; decide

/-- Storing the command word changes CMD at most. -/
theorem keepCommandWord_eq (c : Word16) (s : State) :
    keepCommandWord c s = { s with cmd := if s.faulted then s.cmd else .value c } := by
  cases h : s.faulted <;> simp [keepCommandWord, h]

@[simp] theorem keepCommandWord_operand (c : Word16) (s : State) : (keepCommandWord c s).operand = s.operand := by
  rw [keepCommandWord_eq]
@[simp] theorem keepCommandWord_result (c : Word16) (s : State) : (keepCommandWord c s).result = s.result := by
  rw [keepCommandWord_eq]
@[simp] theorem keepCommandWord_intPart (c : Word16) (s : State) : (keepCommandWord c s).intPart = s.intPart := by
  rw [keepCommandWord_eq]
@[simp] theorem keepCommandWord_status (c : Word16) (s : State) : (keepCommandWord c s).status = s.status := by
  rw [keepCommandWord_eq]
@[simp] theorem keepCommandWord_tables (c : Word16) (s : State) : (keepCommandWord c s).tables = s.tables := by
  rw [keepCommandWord_eq]
@[simp] theorem keepCommandWord_renormRound (c : Word16) (s : State) : (keepCommandWord c s).renormRound = s.renormRound := by
  rw [keepCommandWord_eq]
@[simp] theorem keepCommandWord_draws (c : Word16) (s : State) : (keepCommandWord c s).draws = s.draws := by
  rw [keepCommandWord_eq]
@[simp] theorem keepCommandWord_pending (c : Word16) (s : State) : (keepCommandWord c s).pending = s.pending := by
  rw [keepCommandWord_eq]
@[simp] theorem keepCommandWord_returned (c : Word16) (s : State) : (keepCommandWord c s).returned = s.returned := by
  rw [keepCommandWord_eq]
@[simp] theorem keepCommandWord_faulted (c : Word16) (s : State) : (keepCommandWord c s).faulted = s.faulted := by
  rw [keepCommandWord_eq]; rfl

end Sys2Proof.Machine
end

