-- ==== Sys2Proof/Laws/Ops.lean ====
section
/-! SUPPORT. For each shared operation, once, everything it can do. Proofs cite these instead of unfolding the operation. -/

namespace Sys2Proof.Machine

/-- A command that goes on found no recorded fault and a written OPERAND, and its own body answered. -/
theorem takeCommand_next {s t : State} {run : Word64 → Answer} (h : takeCommand s run = .next t) :
    ∃ v, s.faulted = false ∧ s.operand = .value v ∧ run v = .next t := by
  unfold takeCommand at h
  split_ifs at h with hf
  split at h
  · cases h
  · rename_i v hv
    exact ⟨v, by simpa using hf, hv, h⟩

theorem takeCommand_of_ready {s : State} {v : Word64} {run : Word64 → Answer} (hf : s.faulted = false)
    (hv : s.operand = .value v) : takeCommand s run = run v := by
  simp [takeCommand, hf, hv]

theorem takeCommand_of_faulted {s : State} (run : Word64 → Answer) (hf : s.faulted = true) :
    takeCommand s run = .fault .stuck := by
  simp [takeCommand, hf]

theorem takeCommand_of_unwritten {s : State} (run : Word64 → Answer) (hf : s.faulted = false)
    (hv : s.operand = .unwritten) : takeCommand s run = .refused .operandUnwritten := by
  simp [takeCommand, hf, hv]

theorem raiseFault_next {c : Cause} {s t : State} (h : raiseFault c s = .next t) :
    t = { s with status := faultStatus c } := by
  cases h; rfl

/-- A fault's STATUS has FAULT set. -/
@[simp] theorem faultBit_faultStatus (c : Cause) : faultBit (faultStatus c) = true := by cases c <;> decide

/-- A fault's STATUS holds the cause's code. -/
@[simp] theorem causeField_faultStatus (c : Cause) : causeField (faultStatus c) = causeCode c := by
  cases c <;> decide

/-- A fault's STATUS is one of the values the spec allows. -/
@[simp] theorem legalStatus_faultStatus (c : Cause) : legalStatus (faultStatus c) = true := by cases c <;> decide

theorem mapNext_next {f : State → State} {a : Answer} {t : State} (h : mapNext f a = .next t) :
    ∃ u, a = .next u ∧ t = f u := by
  cases a with
  | next u => cases h; exact ⟨u, rfl, rfl⟩
  | fault e => cases h
  | refused e => cases h

/-- A read that goes on only adds one returned value. -/
theorem readReg_next {reg : Reg} {s t : State} (h : readReg reg s = .next t) :
    ∃ r, t = { s with returned := s.returned ++ [r] } := by
  cases reg <;> simp only [readReg, returnContents] at h
  case cmd => cases h
  case status => cases h; exact ⟨_, rfl⟩
  all_goals
    split at h
    · cases h
    · cases h; exact ⟨_, rfl⟩

end Sys2Proof.Machine
end

