-- ==== Sys2Proof/Laws/Exec.lean ====
section
/-! SUPPORT. Inversion of `exec`, of a CMD write and of a step: the only things each can do when it goes on. Every invariant
and frame follows from these, without unfolding the machine again. -/

namespace Sys2Proof.Machine

/-- What LOG2CORE can do (42_fixed_point_log2.md R132, R133). -/
theorem log2Core_cases {w half cap f : Nat} {v : BitVec w} {s t : State}
    (h : log2Core half cap v f s = .next t) :
    (cap < f ∧ t = { s with status := faultStatus .fracBitsExceeded }) ∨
    (f ≤ cap ∧ v = 0#w ∧ t = writeResult log2Sentinel s) ∨
    (f ≤ cap ∧ v ≠ 0#w ∧
      t = writeResult (log2Fraction s.renormRound half v f) (writeIntPart (BitVec.ofNat 32 (bsr v)) s)) := by
  unfold log2Core at h
  split_ifs at h with h1 h2
  · exact .inl ⟨h1, raiseFault_next h⟩
  · cases h; exact .inr (.inl ⟨by omega, h2, rfl⟩)
  · cases h; exact .inr (.inr ⟨by omega, h2, rfl⟩)

/-- What a command can do when it goes on: fault, write an index, draw, write the sentinel, or write a fraction and an integer
part. -/
inductive Effect (s : State) : State → Prop where
  | fault (c : Cause) : Effect s { s with status := faultStatus c }
  | index (k : Nat) (hk : k < 64) : Effect s (writeIndex k s)
  | draw : Effect s (drawResult s)
  | sentinel : Effect s (writeResult log2Sentinel s)
  | fraction32 (v : BitVec 32) (f : Nat) (hv : v ≠ 0#32) (hf : f ≤ 28) :
      Effect s (writeResult (log2Fraction s.renormRound 16 v f) (writeIntPart (BitVec.ofNat 32 (bsr v)) s))
  | fraction64 (v : BitVec 64) (f : Nat) (hv : v ≠ 0#64) (hf : f ≤ 30) :
      Effect s (writeResult (log2Fraction s.renormRound 32 v f) (writeIntPart (BitVec.ofNat 32 (bsr v)) s))

/-- A command that goes on was ready to run and had one of the effects above. -/
theorem exec_next {i : Instr} {s t : State} (h : exec i s = .next t) : ∃ v, Ready s v ∧ Effect s t := by
  cases i <;> simp only [exec] at h
  case bsf64 =>
    obtain ⟨v, hf, hv, h⟩ := takeCommand_next h
    refine ⟨v, ⟨hf, hv⟩, ?_⟩
    dsimp only at h
    split_ifs at h with h0
    · exact raiseFault_next h ▸ .fault _
    · cases h; exact .index _ (bsf_spec h0).1
  case bsr64 =>
    obtain ⟨v, hf, hv, h⟩ := takeCommand_next h
    refine ⟨v, ⟨hf, hv⟩, ?_⟩
    dsimp only at h
    split_ifs at h with h0
    · exact raiseFault_next h ▸ .fault _
    · cases h; exact .index _ (bsr_spec h0).1
  case msb8 =>
    obtain ⟨v, hf, hv, h⟩ := takeCommand_next h
    refine ⟨v, ⟨hf, hv⟩, ?_⟩
    dsimp only at h
    split_ifs at h with h0
    · cases h; exact .index _ (Nat.lt_trans (msbIndex_lt _ (by omega)) (by omega))
    · cases h; exact .draw
  case msb16 =>
    obtain ⟨v, hf, hv, h⟩ := takeCommand_next h
    cases h
    exact ⟨v, ⟨hf, hv⟩, .index _ (Nat.lt_trans (msbIndex_lt _ (by omega)) (by omega))⟩
  case msb32 =>
    obtain ⟨v, hf, hv, h⟩ := takeCommand_next h
    cases h
    exact ⟨v, ⟨hf, hv⟩, .index _ (Nat.lt_trans (msbIndex_lt _ (by omega)) (by omega))⟩
  case log2_32 f =>
    obtain ⟨v, hf, hv, h⟩ := takeCommand_next h
    refine ⟨v, ⟨hf, hv⟩, ?_⟩
    obtain ⟨-, rfl⟩ | ⟨-, -, rfl⟩ | ⟨hc, h0, rfl⟩ := log2Core_cases h
    · exact .fault _
    · exact .sentinel
    · exact .fraction32 _ _ h0 hc
  case log2_64 f =>
    obtain ⟨v, hf, hv, h⟩ := takeCommand_next h
    refine ⟨v, ⟨hf, hv⟩, ?_⟩
    obtain ⟨-, rfl⟩ | ⟨-, -, rfl⟩ | ⟨hc, h0, rfl⟩ := log2Core_cases h
    · exact .fault _
    · exact .sentinel
    · exact .fraction64 _ _ h0 hc

/-- A CMD write that goes on was ready to run: an illegal word faulted, or a command had its effect and CMD was kept. -/
theorem runCommandWord_next {c : Word16} {s t : State} (h : runCommandWord c s = .next t) :
    (∃ v, Ready s v) ∧
      (((∃ e, decode c = .error e) ∧ t = { s with status := faultStatus .illegalCommand }) ∨
       (∃ i u, decode c = .ok i ∧ exec i s = .next u ∧ t = keepCommandWord c u)) := by
  unfold runCommandWord at h
  split at h
  · rename_i i hi
    obtain ⟨u, hu, rfl⟩ := mapNext_next h
    obtain ⟨v, hr, -⟩ := exec_next hu
    exact ⟨⟨v, hr⟩, .inr ⟨i, u, hi, hu, rfl⟩⟩
  · rename_i e he
    obtain ⟨v, hf, hv, h⟩ := takeCommand_next h
    exact ⟨⟨v, hf, hv⟩, .inl ⟨⟨e, he⟩, raiseFault_next h⟩⟩

/-- What one action of the host side can do when it goes on: a read adds a returned value, an OPERAND write sets OPERAND, a CMD
write runs its word, reset resets. -/
theorem perform_next {a : HostAction} {s t : State} (h : perform a s = .next t) :
    (∃ r, t = { s with returned := s.returned ++ [r] }) ∨
    (∃ v, a = operandWrite v ∧ t = { s with operand := .value v }) ∨
    (∃ c, a = cmdWrite c ∧ runCommandWord c s = .next t) ∨
    (a = .reset ∧ t = resetBlock s) := by
  unfold perform at h
  split at h
  · rename_i number width
    unfold hostRead at h
    split at h
    · cases h
    · split_ifs at h with hw
      exact .inl (readReg_next h)
  · rename_i number width v
    unfold hostWrite at h
    split at h
    · cases h
    · rename_i reg hreg
      split_ifs at h with hw
      have hn : number = reg.number := by
        rcases number with _ | _ | _ | _ | _ | n <;> simp only [Reg.ofNumber] at hreg <;> cases hreg <;> rfl
      subst hn hw
      cases reg <;> simp only [writeReg] at h
      · cases h; exact .inr (.inl ⟨v, rfl, rfl⟩)
      · exact .inr (.inr (.inl ⟨v, rfl, h⟩))
      all_goals cases h
  · cases h
  · cases h
  · cases h; exact .inr (.inr (.inr ⟨rfl, rfl⟩))

/-- What one step can do when it goes on: nothing is pending and nothing changes, or the first pending action is performed. -/
theorem step_next {s t : State} (h : step s = .next t) :
    (s.pending = [] ∧ t = s) ∨
    (∃ a rest, s.pending = a :: rest ∧ perform a { s with pending := rest } = .next t) := by
  unfold step performNext at h
  split at h
  · rename_i hp
    cases h; exact .inl ⟨hp, rfl⟩
  · rename_i a rest hp
    exact .inr ⟨a, rest, hp, h⟩

end Sys2Proof.Machine
end

