-- ==== Sys2Proof/Laws/Access.lean ====
section
/-! SUPPORT. What a step is for each kind of host action, and what a CMD write answers while FAULT = 1 or while OPERAND is
UNWRITTEN. Proofs about steps cite these and never unfold an access. -/

namespace Sys2Proof.Machine

variable {s : State} {rest : List HostAction}

theorem step_of_pending {a : HostAction} (h : s.pending = a :: rest) : step s = perform a { s with pending := rest } := by
  unfold step performNext; rw [h]

theorem step_of_nothing (h : s.pending = []) : step s = .next s := by
  unfold step performNext; rw [h]

/-- A CMD write runs its word. -/
theorem step_cmdWrite {c : Word16} (h : s.pending = cmdWrite c :: rest) :
    step s = runCommandWord c { s with pending := rest } := step_of_pending h

/-- An OPERAND write stores its value. -/
theorem step_operandWrite {v : Word64} (h : s.pending = operandWrite v :: rest) :
    step s = .next { s with operand := .value v, pending := rest } := step_of_pending h

/-- A read at the register's width reads the register. -/
theorem step_regRead {reg : Reg} (h : s.pending = regRead reg :: rest) :
    step s = readReg reg { s with pending := rest } := by
  rw [step_of_pending h]; cases reg <;> rfl

/-- Reset resets. -/
theorem step_reset (h : s.pending = .reset :: rest) : step s = .next (resetBlock { s with pending := rest }) :=
  step_of_pending h

/-- A number names the register that has it. -/
@[simp] theorem ofNumber_number (reg : Reg) : Reg.ofNumber reg.number = some reg := by cases reg <;> rfl

/-- A CMD write of a word that decodes is `exec` of its command, with the word kept around it. -/
theorem runCommandWord_ok {c : Word16} {i : Instr} (h : decode c = .ok i) (s : State) :
    runCommandWord c s = mapNext (keepCommandWord c) (exec i s) := by
  unfold runCommandWord; rw [h]

/-- A CMD write of an illegal word faults once a command could run. -/
theorem runCommandWord_error {c : Word16} {e : DecodeError} {v : Word64} (h : decode c = .error e) (hr : Ready s v) :
    runCommandWord c s = .next { s with status := faultStatus .illegalCommand } := by
  unfold runCommandWord; rw [h]
  exact takeCommand_of_ready hr.1 hr.2

theorem exec_of_faulted (i : Instr) (h : s.faulted = true) : exec i s = .fault .stuck := by
  cases i <;> exact takeCommand_of_faulted _ h

theorem exec_of_unwritten (i : Instr) (h : s.faulted = false) (ho : s.operand = .unwritten) :
    exec i s = .refused .operandUnwritten := by
  cases i <;> exact takeCommand_of_unwritten _ h ho

theorem runCommandWord_of_faulted (c : Word16) (h : s.faulted = true) : runCommandWord c s = .fault .stuck := by
  unfold runCommandWord
  split
  · rw [exec_of_faulted _ h]; rfl
  · exact takeCommand_of_faulted _ h

theorem runCommandWord_of_unwritten (c : Word16) (h : s.faulted = false) (ho : s.operand = .unwritten) :
    runCommandWord c s = .refused .operandUnwritten := by
  unfold runCommandWord
  split
  · rw [exec_of_unwritten _ h ho]; rfl
  · exact takeCommand_of_unwritten _ h ho

end Sys2Proof.Machine
end

