-- ==== Sys2Proof/Laws/Decode.lean ====
section
/-! SUPPORT. A command word is its three fields (30_encoding.md R60), and the fields as numbers. -/

namespace Sys2Proof

/-- A word is put together from its fields. -/
theorem fields_eq_word (c : Word16) : fracField c ++ rsvField c ++ opField c = c := by
  apply BitVec.eq_of_getLsbD_eq
  intro j hj
  simp only [opField, rsvField, fracField, BitVec.getLsbD_append, BitVec.getLsbD_extractLsb']
  rcases Nat.lt_or_ge j 4 with h | h
  · simp [h]
  · rcases Nat.lt_or_ge j 8 with h8 | h8
    · rw [if_neg (by omega), if_pos (by omega)]
      have : j - 4 < 4 := by omega
      simp only [this, decide_true, Bool.true_and]
      congr 1; omega
    · rw [if_neg (by omega), if_neg (by omega)]
      have : j - 4 - 4 < 8 := by omega
      simp only [this, decide_true, Bool.true_and]
      congr 1; omega

theorem opField_toNat (c : Word16) : (opField c).toNat = c.toNat % 16 := by
  simp [opField, BitVec.extractLsb'_toNat]

theorem rsvField_toNat (c : Word16) : (rsvField c).toNat = c.toNat / 16 % 16 := by
  simp [rsvField, BitVec.extractLsb'_toNat, Nat.shiftRight_eq_div_pow]

theorem fracField_toNat (c : Word16) : (fracField c).toNat = c.toNat / 256 := by
  have := c.isLt
  simp only [fracField, BitVec.extractLsb'_toNat, Nat.shiftRight_eq_div_pow]
  omega

/-- Decoding is a case split on OP. -/
theorem decode_eq (c : Word16) :
    decode c =
      match decodeOp (opField c) (fracField c) with
      | .error .reservedOp => .error .reservedOp
      | r => if rsvField c = 0#4 then r else .error .reservedBits := rfl

end Sys2Proof
end

