-- ==== Sys2Proof/Laws/Log2.lean ====
section
/-! SUPPORT. The operand forms as numbers, what a LOG2 command answers on a nonzero input, and the small facts about the loop of
42_fixed_point_log2.md R132 that later proofs start from. -/

namespace Sys2Proof.Machine

theorem input32_toNat (v : Word64) : (input32 v).toNat = v.toNat % 2 ^ 32 := by
  simp [input32, BitVec.extractLsb'_toNat]

theorem input16_toNat (v : Word64) : (input16 v).toNat = v.toNat % 2 ^ 16 := by
  simp [input16, BitVec.extractLsb'_toNat]

theorem input32_eq_zero (v : Word64) : input32 v = 0#32 ↔ v.toNat % 2 ^ 32 = 0 := by
  rw [← BitVec.toNat_inj, input32_toNat]; rfl

theorem getLsbD_input32 (v : Word64) (j : Nat) : (input32 v).getLsbD j = (decide (j < 32) && v.getLsbD j) := by
  simp [input32, BitVec.getLsbD_extractLsb']

theorem getLsbD_input16 (v : Word64) (j : Nat) : (input16 v).getLsbD j = (decide (j < 16) && v.getLsbD j) := by
  simp [input16, BitVec.getLsbD_extractLsb']

variable {s : State} {v : Word64} {f : Nat}

theorem exec_log2_32_of_ready (hr : Ready s v) : exec (.log2_32 f) s = log2Core 16 28 (input32 v) f s :=
  takeCommand_of_ready hr.1 hr.2

theorem exec_log2_64_of_ready (hr : Ready s v) : exec (.log2_64 f) s = log2Core 32 30 v f s :=
  takeCommand_of_ready hr.1 hr.2

/-- LOG2_32 on a nonzero input, F within the cap: a fraction and an integer part, and nothing else. -/
theorem exec_log2_32_of_ne_zero (hr : Ready s v) (hf : f ≤ 28) (hv : v.toNat % 2 ^ 32 ≠ 0) :
    exec (.log2_32 f) s = .next { s with
      intPart := .value (BitVec.ofNat 32 (bsr (input32 v)))
      result := .value (log2Fraction s.renormRound 16 (input32 v) f) } := by
  rw [exec_log2_32_of_ready hr, log2Core, if_neg (by omega), if_neg (by rwa [input32_eq_zero])]
  rfl

/-- LOG2_64 on a nonzero input, F within the cap: a fraction and an integer part, and nothing else. -/
theorem exec_log2_64_of_ne_zero (hr : Ready s v) (hf : f ≤ 30) (hv : v ≠ 0#64) :
    exec (.log2_64 f) s = .next { s with
      intPart := .value (BitVec.ofNat 32 (bsr v))
      result := .value (log2Fraction s.renormRound 32 v f) } := by
  rw [exec_log2_64_of_ready hr, log2Core, if_neg (by omega), if_neg hv]
  rfl

/-- The shift of a pass, as a number: `bsr(w) − H + 1` (R134). -/
theorem renormShift_eq_log2 {half w : Nat} (h : 2 ^ half ≤ w) (hlt : w < 2 ^ (2 * half)) :
    renormShift half w = Nat.log2 w - half + 1 := by
  have hw : w ≠ 0 := by have := Nat.two_pow_pos half; omega
  have hl : half ≤ Nat.log2 w := (Nat.le_log2 hw).mpr h
  have hq : w >>> half < 2 ^ half := by
    rw [Nat.shiftRight_eq_div_pow, Nat.div_lt_iff_lt_mul (Nat.two_pow_pos _), ← Nat.pow_add, ← Nat.two_mul]
    exact hlt
  have hq0 : w >>> half ≠ 0 := by
    rw [Nat.shiftRight_eq_div_pow]
    exact Nat.pos_iff_ne_zero.mp (Nat.div_pos h (Nat.two_pow_pos _))
  have hne : BitVec.ofNat half (w >>> half) ≠ 0#half := by
    intro hz
    have := congrArg BitVec.toNat hz
    simp only [BitVec.toNat_ofNat, Nat.mod_eq_of_lt hq, Nat.zero_mod] at this
    exact hq0 this
  unfold renormShift
  rw [msbIndex_of_ne_zero hne, bsr_eq_log2 hne, BitVec.toNat_ofNat, Nat.mod_eq_of_lt hq]
  congr 1
  obtain ⟨hb1, hb2⟩ := (Nat.log2_eq_iff hw).mp rfl
  rw [Nat.log2_eq_iff hq0, Nat.shiftRight_eq_div_pow]
  constructor
  · rw [Nat.le_div_iff_mul_le (Nat.two_pow_pos _), ← Nat.pow_add, Nat.sub_add_cancel hl]
    exact hb1
  · rw [Nat.div_lt_iff_lt_mul (Nat.two_pow_pos _), ← Nat.pow_add,
      show Nat.log2 w - half + 1 + half = Nat.log2 w + 1 by omega]
    exact hb2

/-- Renormalising leaves the result bits alone. -/
@[simp] theorem renormWhile_r (mode : RenormRound) (half passes : Nat) (st : LoopState) :
    (renormWhile mode half passes st).r = st.r := by
  induction passes generalizing st with
  | zero => rfl
  | succ passes ih =>
    unfold renormWhile
    split
    · rw [ih]; rfl
    · rfl

@[simp] theorem renormalise_r (mode : RenormRound) (half : Nat) (st : LoopState) :
    (renormalise mode half st).r = st.r := renormWhile_r mode half 2 st

/-- An iteration may be taken first or last. -/
theorem log2Loop_iteration (mode : RenormRound) (half k : Nat) (st : LoopState) :
    log2Loop mode half k (log2Iteration mode half st) = log2Iteration mode half (log2Loop mode half k st) := by
  induction k with
  | zero => rfl
  | succ k ih => rw [log2Loop, ih]; rfl

end Sys2Proof.Machine
end

