-- ==== Sys2Proof/Laws/PerInstr.lean ====
section
/-! SUPPORT. Per-command facts about the command word as syntax. The family WordFields says where an encoded command's fields
stand (30_encoding.md R60): OP in c[3:0], zeros in c[7:4], FRAC in c[15:8]. -/

namespace Sys2Proof.Laws.WordFields

/-- The encoded word's three fields are the command's (R60). -/
def Statement (i : Instr) : Prop :=
  opField (encode i) = i.op ∧ rsvField (encode i) = 0#4 ∧ fracField (encode i) = i.frac

/-- The fields of any word laid out as R60 lays it out. -/
theorem fields_append (frac : BitVec 8) (op : BitVec 4) :
    opField (frac ++ 0#4 ++ op) = op ∧ rsvField (frac ++ 0#4 ++ op) = 0#4 ∧
      fracField (frac ++ 0#4 ++ op) = frac := by
  refine ⟨?_, ?_, ?_⟩ <;> apply BitVec.eq_of_getLsbD_eq <;> intro j hj <;>
    simp only [opField, rsvField, fracField, BitVec.getLsbD_extractLsb', BitVec.getLsbD_append, hj,
      decide_true, Bool.true_and, BitVec.getLsbD_zero]
  · simp [hj]
  · rw [if_neg (by omega), if_pos (by omega)]
  · rw [if_neg (by omega), if_neg (by omega)]
    congr 1
    omega

theorem bsf64 : Statement .bsf64 := fields_append _ _
theorem bsr64 : Statement .bsr64 := fields_append _ _
theorem msb8 : Statement .msb8 := fields_append _ _
theorem msb16 : Statement .msb16 := fields_append _ _
theorem msb32 : Statement .msb32 := fields_append _ _
theorem log2_32 (fracBits : Nat) : Statement (.log2_32 fracBits) := fields_append _ _
theorem log2_64 (fracBits : Nat) : Statement (.log2_64 fracBits) := fields_append _ _

end Sys2Proof.Laws.WordFields
end

