-- ==== Sys2Proof/Laws/Platform.lean ====
section
/-! SUPPORT. What a platform's byte bus carries at each position, and what it makes of the bytes (20_memory.md R42). -/

namespace Sys2Proof.Machine

variable {w n : Nat} (order : Equiv.Perm (Fin n))

@[simp] theorem length_bytesInOrder (v : BitVec w) : (bytesInOrder order v).length = n := List.length_ofFn

/-- Position i carries byte `order i`. -/
@[simp] theorem getElem_bytesInOrder (v : BitVec w) (i : Nat) (h : i < (bytesInOrder order v).length) :
    (bytesInOrder order v)[i] = v.extractLsb' (8 * (order ⟨i, by simpa using h⟩).val) 8 := by
  simp [bytesInOrder]

/-- Assembled bytes, bit by bit: bit j is bit `j % 8` of the byte `j / 8`. -/
theorem getLsbD_ofBytes (bytes : List (BitVec 8)) (j : Nat) :
    (ofBytes w bytes).getLsbD j = (decide (j < w) && (bytes.getD (j / 8) 0#8).getLsbD (j % 8)) := by
  induction bytes generalizing j with
  | nil => simp [ofBytes]
  | cons b rest ih =>
    simp only [ofBytes, BitVec.getLsbD_or, BitVec.getLsbD_setWidth, BitVec.getLsbD_shiftLeft, ih]
    by_cases hj : j < w <;> simp only [hj, decide_true, decide_false, Bool.true_and, Bool.false_and, Bool.or_false]
    rcases Nat.lt_or_ge j 8 with h | h
    · simp [h, Nat.div_eq_of_lt h, Nat.mod_eq_of_lt h]
    · have hd : j / 8 = (j - 8) / 8 + 1 := by omega
      have hm : j % 8 = (j - 8) % 8 := by omega
      have hw : j - 8 < w := by omega
      simp [hd, hm, hw, Nat.not_lt.mpr h, BitVec.getLsbD_of_ge b j h]

end Sys2Proof.Machine
end

