-- ==== Sys2Proof/Tests/Slice0.lean ====
section
/-! SUPPORT. The model's own tests, and a witness for the hypotheses of every statement that has some. Expected results are the
spec's own: the section of 95_test_vectors.md, or the rule, stands beside each test. -/

namespace Sys2Proof.Tests

open Sys2Proof.Machine

/-! ## Helpers: small states and answers that can be compared -/

/-- A block just reset with OPERAND written. -/
def ready (v : Word64) : State := { State.reset with operand := .value v }

/-- A block with OPERAND written and one host action pending. -/
def readyWith (v : Word64) (a : HostAction) : State := { ready v with pending := [a] }

/-- A block that has recorded a fault, with OPERAND, RESULT and INT_PART written and one host action pending. -/
def faultedWith (a : HostAction) : State :=
  { readyWith 5#64 a with status := 0x21#32, result := .value 9#32, intPart := .value 2#32 }

/-- The next state of an answer, if there is one. -/
def nextOf : Answer → Option State
  | .next s => some s
  | .fault _ => none
  | .refused _ => none

/-- The refusal of an answer, if it is one. -/
def refusalOf : Answer → Option Refusal
  | .next _ => none
  | .fault _ => none
  | .refused r => some r

/-- The command a word decodes to, or why it is illegal. -/
def decoded (c : Word16) : Option Instr × Option DecodeError :=
  match decode c with
  | .ok i => (some i, none)
  | .error e => (none, some e)

/-- RESULT, INT_PART and STATUS after a command on an operand. -/
def after (i : Instr) (v : Word64) : Option (Contents 32 × Contents 32 × Word32) :=
  (nextOf (exec i (ready v))).map fun s => (s.result, s.intPart, s.status)

/-! ## WellFormed -/

/-- R62, R70: a count of 256 does not fit FRAC. -/
theorem test_wellFormed_refuses_256_log2_32 : (Instr.log2_32 256).wellFormed = false := by decide
theorem test_wellFormed_refuses_256_log2_64 : (Instr.log2_64 256).wellFormed = false := by decide
/-- R66: a count above the cap is still a legal command. -/
theorem test_wellFormed_accepts_255 :
    (Instr.log2_32 255).wellFormed = true ∧ (Instr.log2_64 255).wellFormed = true := by decide

/-! ## Decoding: words written out from the fields of 30_encoding.md R60 and R61, FRAC RSV OP -/

theorem test_decode_scans :
    decoded 0b0000000000000001#16 = (some .bsf64, none) ∧ decoded 0b0000000000000010#16 = (some .bsr64, none) ∧
    decoded 0b0000000000000011#16 = (some .msb8, none) ∧ decoded 0b0000000000000100#16 = (some .msb16, none) ∧
    decoded 0b0000000000000101#16 = (some .msb32, none) := by decide

/-- 95_test_vectors.md section 2.1; the examples 0x0406 and 0x0807 of R140 and R141. -/
theorem test_decode_logs :
    decoded 0b0000010000000110#16 = (some (.log2_32 4), none) ∧ decoded 0b0000100000000111#16 = (some (.log2_64 8), none) ∧
    decoded 0x0006#16 = (some (.log2_32 0), none) ∧ decoded 0x1C06#16 = (some (.log2_32 28), none) ∧
    decoded 0x1D06#16 = (some (.log2_32 29), none) ∧ decoded 0x1E07#16 = (some (.log2_64 30), none) ∧
    decoded 0xFF07#16 = (some (.log2_64 255), none) := by decide

/-- 95_test_vectors.md section 2.1: illegal words, by the kind R65 names. -/
theorem test_decode_illegal :
    decoded 0x0000#16 = (none, some .reservedOp) ∧ decoded 0x0008#16 = (none, some .reservedOp) ∧
    decoded 0x000F#16 = (none, some .reservedOp) ∧ decoded 0x0011#16 = (none, some .reservedBits) ∧
    decoded 0x00F6#16 = (none, some .reservedBits) ∧ decoded 0x0101#16 = (none, some .fracNotZero) ∧
    decoded 0x8005#16 = (none, some .fracNotZero) := by decide

theorem test_encode_words :
    encode .bsf64 = 0x0001#16 ∧ encode .msb32 = 0x0005#16 ∧ encode (.log2_32 16) = 0x1006#16 ∧
    encode (.log2_64 31) = 0x1F07#16 := by decide

theorem test_decodeTableWord :
    decodeTableWord 16 0x0003 = some .msb8 ∧ decodeTableWord 16 0x0006 = some (.log2_32 0) ∧
    decodeTableWord 8 0x07 = some (.log2_64 0) ∧ decodeTableWord 16 0x0009 = none := by decide

/-! ## The scans (95_test_vectors.md sections 2.2 to 2.4) -/

theorem test_bsf64 :
    after .bsf64 0x0000000000000A00#64 = some (.value 9#32, .unwritten, 0#32) ∧
    after .bsf64 0x8000000000000000#64 = some (.value 63#32, .unwritten, 0#32) := by decide +kernel

theorem test_bsf64_zero_faults : after .bsf64 0#64 = some (.unwritten, .unwritten, 0x21#32) := by decide

theorem test_bsr64 :
    after .bsr64 0x0000010000000001#64 = some (.value 40#32, .unwritten, 0#32) ∧
    after .bsr64 0x00000000FFFFFFFF#64 = some (.value 31#32, .unwritten, 0#32) := by decide

theorem test_bsr64_zero_faults : after .bsr64 0#64 = some (.unwritten, .unwritten, 0x31#32) := by decide

theorem test_msb8 :
    after .msb8 0x23#64 = some (.value 5#32, .unwritten, 0#32) ∧
    after .msb8 0x0001000000000000#64 = some (.value 0#32, .unwritten, 0#32) := by decide

/-- R107: with a high bit set the command completes and draws; RESULT is left out, since it is a free value. -/
theorem test_msb8_draws : (nextOf (exec .msb8 (ready 0x100#64))).map (fun s => (s.draws, s.status)) = some (1, 0#32) := by
  decide

theorem test_msb16 :
    after .msb16 0xDEADBEEF#64 = some (.value 15#32, .unwritten, 0#32) ∧
    after .msb16 0x10000#64 = some (.value 0#32, .unwritten, 0#32) := by decide

theorem test_msb32 :
    after .msb32 0x10000#64 = some (.value 16#32, .unwritten, 0#32) ∧
    after .msb32 0x100000000#64 = some (.value 0#32, .unwritten, 0#32) := by decide

/-! ## The logarithms (95_test_vectors.md sections 2.5 and 3) -/

theorem test_log2_32 :
    after (.log2_32 28) 0x3#64 = some (.value 0x95C02C6#32, .value 1#32, 0#32) ∧
    after (.log2_32 16) 0x0000000100000003#64 = some (.value 0x95C0#32, .value 1#32, 0#32) ∧
    after (.log2_32 28) 0xFFFFFFFF#64 = some (.value 0xFFFFFFF#32, .value 31#32, 0#32) := by decide +kernel

theorem test_log2_32_stops_short :
    after (.log2_32 28) 0#64 = some (.value 0xFFFFFFFF#32, .unwritten, 0#32) ∧
    after (.log2_32 29) 0#64 = some (.unwritten, .unwritten, 0x41#32) ∧
    after (.log2_32 16) 0x10000#64 = some (.value 0#32, .value 16#32, 0#32) := by decide

theorem test_log2_64 :
    after (.log2_64 30) 0x5#64 = some (.value 0x149A784B#32, .value 2#32, 0#32) ∧
    after (.log2_64 24) 0x0DE0B6B3A7640000#64 = some (.value 0xCB71D5#32, .value 59#32, 0#32) ∧
    after (.log2_64 30) 0x8000000000000001#64 = some (.value 1#32, .value 63#32, 0#32) := by decide +kernel

theorem test_log2_64_stops_short :
    after (.log2_64 16) 0#64 = some (.value 0xFFFFFFFF#32, .unwritten, 0#32) ∧
    after (.log2_64 31) 5#64 = some (.unwritten, .unwritten, 0x41#32) := by decide

/-- The HALF_UP column of section 2.5. -/
theorem test_log2_halfUp :
    log2Fraction .halfUp 16 0x3#32 28 = 0x95C0164#32 ∧ log2Fraction .halfUp 16 0x80000001#32 16 = 0#32 ∧
    log2Fraction .halfUp 16 0x101#32 16 = 0x171#32 := by decide +kernel

/-- Section 3.3: two passes in one iteration, and the extract step at a mantissa of 2.0. -/
theorem test_log2_trace_two_passes :
    renormPass .ceil 16 ⟨4294967295, 31, 0⟩ = ⟨65536, 15, 0⟩ ∧ renormPass .ceil 16 ⟨65536, 15, 0⟩ = ⟨32768, 14, 0⟩ ∧
    log2Iteration .ceil 16 ⟨4294967295, 31, 0⟩ = ⟨1073741824, 29, 1⟩ := by decide

/-- Section 3.4: the state after four iterations under both roundings. -/
theorem test_log2_trace_1000 :
    log2Loop .ceil 16 5 (log2Init 1000#32) = ⟨2010984336, 30, 30⟩ ∧
    log2Loop .halfUp 16 5 (log2Init 1000#32) = ⟨2010894649, 30, 30⟩ := by decide +kernel

/-! ## Host accesses: one step each (95_test_vectors.md section 5) -/

/-- P3 lines 3, 4 and 6: the fault is recorded, can be read, and does not stop an OPERAND write. -/
theorem test_fault_recorded :
    (nextOf (step (readyWith 0#64 (cmdWrite 0x0001#16)))).map (fun s => (s.status, s.result, s.cmd)) =
      some (0x21#32, .unwritten, .unwritten) := by decide
theorem test_fault_readable :
    (nextOf (step (faultedWith (regRead .status)))).map (·.returned) = some [.status 0x21#32] := by decide
theorem test_operand_write_while_faulted :
    (nextOf (step (faultedWith (operandWrite 8#64)))).map (fun s => (s.operand, s.status)) =
      some (.value 8#64, 0x21#32) := by decide

/-- P3b: a CMD write while FAULT = 1 is stuck. -/
theorem test_stuck : step (faultedWith (cmdWrite 0x0001#16)) = .fault .stuck := rfl

/-- P3 line 8: reset clears the fault and makes OPERAND UNWRITTEN again. -/
theorem test_reset_clears :
    (nextOf (step (faultedWith .reset))).map (fun s => (s.status, s.operand, s.result)) =
      some (0#32, .unwritten, .unwritten) := by decide

/-- P4 lines 3 and 7: the cap comes before the zero input, the illegal word before both. -/
theorem test_check_order :
    (nextOf (step (readyWith 0#64 (cmdWrite 0x1D06#16)))).map (·.status) = some 0x41#32 ∧
    (nextOf (step (readyWith 0#64 (cmdWrite 0x0101#16)))).map (·.status) = some 0x11#32 := by decide

/-- P5: the three refused programs' last accesses. -/
theorem test_refusals :
    refusalOf (step (loaded [regRead .result])) = some (.readUnwritten .result) ∧
    refusalOf (step (loaded [cmdWrite 0x0001#16])) = some .operandUnwritten ∧
    refusalOf (step (readyWith 1#64 (regRead .cmd))) = some (.notReadable .cmd) := by decide

/-- A completed command's word stays in CMD (log entry 7). -/
theorem test_cmd_keeps_completed_word :
    (nextOf (step (readyWith 8#64 (cmdWrite 0x0001#16)))).map (fun s => (s.cmd, s.result)) =
      some (.value 0x0001#16, .value 3#32) := by decide +kernel

/-- A command placed after reset runs in the next step. -/
theorem test_withFetchWord :
    (nextOf (step (State.reset.withFetchWord 16 0x0007))).map (fun s => (s.result, s.intPart)) =
      some (.value 0#32, .value 0#32) := by decide +kernel

/-! ## Tables, programs and platforms -/

/-- 93_implementation_defined.md section 2: the tables on single bits and on the values it lists. -/
theorem test_tables_on_single_bits :
    ((List.range 64).all fun k => fwdDatapath State.reset.tables (BitVec.twoPow 64 k) == BitVec.ofNat 6 k) = true ∧
    ((List.range 64).all fun k => revDatapath State.reset.tables (BitVec.twoPow 64 k) == BitVec.ofNat 6 k) = true ∧
    ((List.range 32).all fun k => msbDatapath State.reset.tables msb32Rounds (BitVec.twoPow 32 k) == BitVec.ofNat 5 k) =
      true := by decide
theorem test_msb8_datapath_spread :
    msbDatapath State.reset.tables msb8Rounds 0x0100#16 = 30#5 ∧ msbDatapath State.reset.tables msb8Rounds 0x01FF#16 = 8#5 ∧
    msbDatapath State.reset.tables msb8Rounds 0x8000#16 = 5#5 := by decide

/-- R70, in the text of P1, P2 and P4. -/
theorem test_assemble :
    assembleLine ['l', 'o', 'g', '2', '_', '3', '2', ' ', '3', ',', ' ', '1', '6'] =
      some [operandWrite 3#64, cmdWrite 0x1006#16] ∧
    assembleLine ['w', 'r', ' ', 'C', 'M', 'D', ',', ' ', '0', 'x', '1', 'D', '0', '6', ' ', ';', 'x'] =
      some [cmdWrite 0x1D06#16] ∧
    assembleLine ['r', 'd', ' ', 'I', 'N', 'T', '_', 'P', 'A', 'R', 'T'] = some [regRead .intPart] ∧
    assembleLine ['l', 'o', 'g', '2', '_', '6', '4', ' ', '2', '5', '6'] = none := by decide

/-- R42: the two plain byte orders, written out. -/
theorem test_bytes :
    bytesInOrder (Equiv.refl (Fin 4)) 0x89ABCDEF#32 = [0xEF#8, 0xCD#8, 0xAB#8, 0x89#8] ∧
    bytesInOrder (Fin.revPerm (n := 4)) 0x89ABCDEF#32 = [0x89#8, 0xAB#8, 0xCD#8, 0xEF#8] ∧
    valueInOrder 32 (Fin.revPerm (n := 4)) [0x89#8, 0xAB#8, 0xCD#8, 0xEF#8] = 0x89ABCDEF#32 := by decide

/-- R181: a stuck instance stops its own step only (log entry 18). -/
theorem test_other_instance_goes_on :
    stepInstance 0 [faultedWith (cmdWrite 0x0001#16), loaded [.reset]] = .fault .stuck ∧
    stepInstance 1 [faultedWith (cmdWrite 0x0001#16), loaded [.reset]] =
      .next [faultedWith (cmdWrite 0x0001#16), State.reset] := ⟨rfl, rfl⟩

/-! ## Witnesses: each statement's hypotheses can be met, at the boundary values of its clauses -/

theorem ready_ready (v : Word64) : Ready (ready v) v := ⟨(by decide : State.reset.faulted = false), rfl⟩

theorem witness_DecodeOfEncode : (Instr.log2_32 255).wellFormed = true ∧ (Instr.log2_64 0).wellFormed = true := by decide
theorem witness_EncodeOfDecode : decode 0xFF06#16 = .ok (.log2_32 255) := rfl
theorem witness_OpcodeMapSelectsTheCommand :
    (⟨"LOG2_32", 0x0006#16, 0x00FF#16⟩ ∈ opcodeMap ∧ OpcodeRow.covers ⟨"LOG2_32", 0x0006#16, 0x00FF#16⟩ 0xFF06#16 = true) ∧
    ∀ r ∈ opcodeMap, r.covers 0x0008#16 = false := by decide
theorem witness_ResetAction : (faultedWith .reset).pending = .reset :: [] := rfl
theorem witness_StepRunsDecodedCommand :
    (readyWith 3#64 (cmdWrite 0x1006#16)).pending = cmdWrite 0x1006#16 :: [] ∧ decode 0x1006#16 = .ok (.log2_32 16) ∧
    decode 0x0001#16 = .ok .bsf64 ∧
    (∃ t, exec .bsf64 { readyWith 3#64 (cmdWrite 0x0001#16) with pending := [] } = .next t ∧ t.faulted = false) ∧
    ∃ t, exec .bsf64 { readyWith 0#64 (cmdWrite 0x0001#16) with pending := [] } = .next t ∧ t.faulted = true :=
  ⟨rfl, rfl, rfl, ⟨_, rfl, by decide⟩, _, rfl, by decide⟩
theorem witness_EveryStepTakesTheNextAction : ∃ t, step (readyWith 3#64 (regRead .operand)) = .next t := ⟨_, rfl⟩
theorem witness_FaultIsSticky :
    (faultedWith .reset).faulted = true ∧
    (faultedWith (cmdWrite 0x0007#16)).pending = cmdWrite 0x0007#16 :: [] ∧
    (faultedWith (operandWrite 0#64)).pending = operandWrite 0#64 :: [] ∧
    (faultedWith (regRead .status)).pending = regRead .status :: [] ∧
    ((faultedWith (regRead .operand)).operand = .value 5#64 ∧ (faultedWith (regRead .operand)).pending = regRead .operand :: []) ∧
    ((faultedWith (regRead .result)).result = .value 9#32 ∧ (faultedWith (regRead .result)).pending = regRead .result :: []) ∧
    ((faultedWith (regRead .intPart)).intPart = .value 2#32 ∧
      (faultedWith (regRead .intPart)).pending = regRead .intPart :: []) ∧
    ((∃ t, step (faultedWith (operandWrite 0#64)) = .next t) ∧
      (faultedWith (operandWrite 0#64)).pending.head? ≠ some .reset) :=
  ⟨by decide, rfl, rfl, rfl, ⟨rfl, rfl⟩, ⟨rfl, rfl⟩, ⟨rfl, rfl⟩, ⟨_, rfl⟩, by decide⟩
theorem witness_UnwrittenIsRefused :
    ((loaded [regRead .result]).result = .unwritten ∧ (loaded [regRead .result]).pending = regRead .result :: []) ∧
    ((loaded [regRead .intPart]).intPart = .unwritten ∧ (loaded [regRead .intPart]).pending = regRead .intPart :: []) ∧
    ((loaded [cmdWrite 0#16]).faulted = false ∧ (loaded [cmdWrite 0#16]).operand = .unwritten ∧
      (loaded [cmdWrite 0#16]).pending = cmdWrite 0#16 :: []) ∧
    ((loaded [regRead .operand]).operand = .unwritten ∧ (loaded [regRead .operand]).pending = regRead .operand :: []) :=
  ⟨⟨rfl, rfl⟩, ⟨rfl, rfl⟩, ⟨by decide, rfl, rfl⟩, rfl, rfl⟩
theorem witness_ChecksComeInOrder :
    (faultedWith (cmdWrite 0#16)).faulted = true ∧
    ((loaded [cmdWrite 0#16]).faulted = false ∧ (loaded [cmdWrite 0#16]).operand = .unwritten) ∧
    (Ready (readyWith 0#64 (cmdWrite 0#16)) 0#64 ∧ (readyWith 0#64 (cmdWrite 0#16)).pending = cmdWrite 0#16 :: []) ∧
    legal 0#16 = false ∧ legal 0x0101#16 = false ∧ decode 0x1D06#16 = .ok (.log2_32 29) ∧
    decode 0x1F07#16 = .ok (.log2_64 31) ∧ decode 0x0001#16 = .ok .bsf64 ∧ decode 0x0002#16 = .ok .bsr64 :=
  ⟨by decide, ⟨by decide, rfl⟩, ⟨⟨rfl, rfl⟩, rfl⟩, by decide, by decide, rfl, rfl, rfl, rfl⟩
theorem witness_IllegalWordFaults :
    (Ready (readyWith 0#64 (cmdWrite 0x0101#16)) 0#64 ∧
      (readyWith 0#64 (cmdWrite 0x0101#16)).pending = cmdWrite 0x0101#16 :: []) ∧
    (0x0000#16).toNat % 16 = 0 ∧ 8 ≤ (0x0008#16).toNat % 16 ∧ (0x0011#16).toNat / 16 % 16 ≠ 0 ∧
    ((0x8005#16).toNat % 16 ≤ 5 ∧ (0x8005#16).toNat / 256 ≠ 0) :=
  ⟨⟨⟨rfl, rfl⟩, rfl⟩, by decide⟩
theorem witness_ReadsAndOperandWrites :
    (readyWith 5#64 (regRead .status)).pending = regRead .status :: [] ∧
    ((readyWith 5#64 (regRead .operand)).operand = .value 5#64 ∧ (readyWith 5#64 (regRead .operand)).pending = regRead .operand :: []) ∧
    ((faultedWith (regRead .result)).result = .value 9#32 ∧ (faultedWith (regRead .result)).pending = regRead .result :: []) ∧
    ((faultedWith (regRead .intPart)).intPart = .value 2#32 ∧
      (faultedWith (regRead .intPart)).pending = regRead .intPart :: []) ∧
    (loaded [operandWrite 0#64]).pending = operandWrite 0#64 :: [] :=
  ⟨rfl, ⟨rfl, rfl⟩, ⟨rfl, rfl⟩, ⟨rfl, rfl⟩, rfl⟩
theorem witness_OtherAccessesRefused :
    (loaded [.read .servedHost 1 16]).pending = .read .servedHost 1 16 :: [] ∧
    (loaded [.write .servedHost 2 32 0#32]).pending = .write .servedHost 2 32 0#32 :: [] ∧
    (loaded [.write .servedHost 4 32 0#32]).pending = .write .servedHost 4 32 0#32 :: [] ∧
    (loaded [.read .servedHost 5 32]).pending = .read .servedHost 5 32 :: [] ∧
    (loaded [.write .servedHost 5 64 0#64]).pending = .write .servedHost 5 64 0#64 :: [] := ⟨rfl, rfl, rfl, rfl, rfl⟩
theorem witness_OtherWidthsRefused :
    32 ≠ Reg.width .operand ∧ (loaded [.read .servedHost (Reg.number .operand) 32]).pending = .read .servedHost (Reg.number .operand) 32 :: [] ∧
    17 ≠ Reg.width .cmd ∧ (loaded [.write .servedHost (Reg.number .cmd) 17 1#17]).pending = .write .servedHost (Reg.number .cmd) 17 1#17 :: [] :=
  ⟨by decide, rfl, by decide, rfl⟩
theorem witness_SecondHostRefused :
    (loaded [.read .otherHost 4 32]).pending = .read .otherHost 4 32 :: [] ∧
    (loaded [.write .otherHost 0 64 0#64]).pending = .write .otherHost 0 64 0#64 :: [] := ⟨rfl, rfl⟩
theorem witness_BootOrderRunsACommand :
    (loaded [.reset, operandWrite 8#64, cmdWrite 0x0001#16]).pending =
      .reset :: operandWrite 8#64 :: cmdWrite 0x0001#16 :: [] ∧ decode 0x0001#16 = .ok .bsf64 := ⟨rfl, rfl⟩
theorem witness_StuckRunNeverEnds :
    (faultedWith (cmdWrite 0x0001#16)).faulted = true ∧
    (faultedWith (cmdWrite 0x0001#16)).pending = cmdWrite 0x0001#16 :: [] := ⟨by decide, rfl⟩
theorem witness_Bsf64Meaning : (Ready (ready 0x8000000000000000#64) 0x8000000000000000#64 ∧ 0x8000000000000000#64 ≠ 0#64) ∧
    Ready (ready 0#64) 0#64 := ⟨⟨ready_ready _, by decide⟩, ready_ready _⟩
theorem witness_Bsr64Meaning : (Ready (ready 1#64) 1#64 ∧ 1#64 ≠ 0#64) ∧ Ready (ready 0#64) 0#64 :=
  ⟨⟨ready_ready _, by decide⟩, ready_ready _⟩
theorem witness_Msb8Meaning :
    (Ready (ready 0x10000#64) 0x10000#64 ∧ ∀ j, j < 16 → (0x10000#64).getLsbD j = false) ∧
    (Ready (ready 0x80#64) 0x80#64 ∧ (0x80#64).getLsbD 7 = true ∧ ∀ j, j < 16 → 7 < j → (0x80#64).getLsbD j = false) ∧
    (Ready (ready 1#64) 1#64 ∧ (1#64).getLsbD 0 = true ∧ ∀ j, j < 16 → 0 < j → (1#64).getLsbD j = false) ∧
    (Ready (ready 0x100#64) 0x100#64 ∧ (0x100#64).getLsbD 8 = true) ∧
    (Ready (ready 0x8000#64) 0x8000#64 ∧ (0x8000#64).getLsbD 15 = true) :=
  ⟨⟨ready_ready _, by decide⟩, ⟨ready_ready _, by decide⟩, ⟨ready_ready _, by decide⟩, ⟨ready_ready _, by decide⟩,
    ready_ready _, by decide⟩
theorem witness_Msb16Meaning :
    (Ready (ready 0x10000#64) 0x10000#64 ∧ ∀ j, j < 16 → (0x10000#64).getLsbD j = false) ∧
    (Ready (ready 0x1FFFF#64) 0x1FFFF#64 ∧ (0x1FFFF#64).getLsbD 15 = true ∧ ∀ j, j < 16 → 15 < j → (0x1FFFF#64).getLsbD j = false) ∧
    (Ready (ready 1#64) 1#64 ∧ (1#64).getLsbD 0 = true ∧ ∀ j, j < 16 → 0 < j → (1#64).getLsbD j = false) :=
  ⟨⟨ready_ready _, by decide⟩, ⟨ready_ready _, by decide⟩, ready_ready _, by decide⟩
theorem witness_Msb32Meaning :
    (Ready (ready 0x100000000#64) 0x100000000#64 ∧ ∀ j, j < 32 → (0x100000000#64).getLsbD j = false) ∧
    (Ready (ready 0x80000000#64) 0x80000000#64 ∧ (0x80000000#64).getLsbD 31 = true ∧
      ∀ j, j < 32 → 31 < j → (0x80000000#64).getLsbD j = false) ∧
    (Ready (ready 1#64) 1#64 ∧ (1#64).getLsbD 0 = true ∧ ∀ j, j < 32 → 0 < j → (1#64).getLsbD j = false) :=
  ⟨⟨ready_ready _, by decide⟩, ⟨ready_ready _, by decide⟩, ready_ready _, by decide⟩
theorem witness_MsbOfZeroIsZero : Ready (ready 0#64) 0#64 ∧ Ready (ready 1#64) 1#64 := ⟨ready_ready _, ready_ready _⟩
theorem witness_ScansAgreeOnPowersOfTwo : 63 < 64 ∧ Ready (ready (BitVec.twoPow 64 63)) (BitVec.twoPow 64 63) ∧
    0 < 64 ∧ Ready (ready (BitVec.twoPow 64 0)) (BitVec.twoPow 64 0) := ⟨by decide, ready_ready _, by decide, ready_ready _⟩
theorem witness_Log2_32RunsTheAlgorithm :
    Ready (ready 0xFFFFFFFF#64) 0xFFFFFFFF#64 ∧ 28 ≤ 28 ∧ (0xFFFFFFFF#64).toNat % 2 ^ 32 ≠ 0 := ⟨ready_ready _, by decide⟩
theorem witness_Log2_64RunsTheAlgorithm : Ready (ready 5#64) 5#64 ∧ 30 ≤ 30 ∧ 5#64 ≠ 0#64 := ⟨ready_ready _, by decide⟩
theorem witness_Log2CapComesBeforeZero :
    Ready (ready 0#64) 0#64 ∧ 28 < 29 ∧ 30 < 31 ∧ 28 ≤ 28 ∧ (0#64).toNat % 2 ^ 32 = 0 ∧
    (Ready (ready 0x100000000#64) 0x100000000#64 ∧ (0x100000000#64).toNat % 2 ^ 32 = 0) :=
  ⟨ready_ready _, by decide, by decide, by decide, by decide, ready_ready _, by decide⟩
theorem witness_Log2OfPowersOfTwo :
    (Ready (ready (BitVec.twoPow 64 63)) (BitVec.twoPow 64 63) ∧ 63 < 64 ∧ 30 ≤ 30) ∧
    (Ready (ready (BitVec.twoPow 64 31)) (BitVec.twoPow 64 31) ∧ 31 < 32 ∧ 28 ≤ 28) :=
  ⟨⟨ready_ready _, by decide⟩, ready_ready _, by decide⟩
theorem witness_Log2WithoutFractionBits : Ready (ready 256#64) 256#64 ∧ (256#64).toNat % 2 ^ 32 ≠ 0 ∧ 256#64 ≠ 0#64 :=
  ⟨ready_ready _, by decide, by decide⟩
theorem witness_FractionHasFBits : (log2Init 0xFFFFFFFF#32).r = 0#32 ∧ 30 ≤ 30 ∧ 29 < 30 := ⟨rfl, by decide, by decide⟩
theorem witness_SentinelIsNoFraction :
    Ready (ready 0xFFFFFFFF#64) 0xFFFFFFFF#64 ∧ 28 ≤ 28 ∧ 30 ≤ 30 ∧ (0xFFFFFFFF#64).toNat % 2 ^ 32 ≠ 0 ∧ 0xFFFFFFFF#64 ≠ 0#64 :=
  ⟨ready_ready _, by decide, by decide, by decide, by decide⟩
theorem witness_LoopInvariantKept :
    0xFFFFFFFF#(2 * 16) ≠ 0#(2 * 16) ∧ LoopInv 16 ⟨4294967295, 31, 0⟩ ∧ 2 ^ 16 ≤ 4294967295 ∧ LoopInv 16 ⟨3, 1, 0⟩ := by
  unfold LoopInv; decide
theorem witness_LoopBounds : LoopInv 32 ⟨2 ^ 64 - 1, 63, 0⟩ ∧ 2 ^ 32 ≤ 2 ^ 64 - 1 ∧ LoopInv 16 ⟨65536, 15, 0⟩ := by
  unfold LoopInv; decide
theorem witness_SquareNeverWraps : LoopInv 16 ⟨4294967295, 31, 0⟩ := by unfold LoopInv; decide
theorem witness_PassRoundsExactly : LoopInv 16 ⟨4294967295, 31, 0⟩ ∧ 2 ^ 16 ≤ 4294967295 ∧ LoopInv 16 ⟨65536, 15, 0⟩ := by
  unfold LoopInv; decide
theorem witness_Log2IsMonotone :
    (ready 3#64).faulted = false ∧ 0 < (3#64).toNat % 2 ^ 32 ∧ (3#64).toNat % 2 ^ 32 < (5#64).toNat % 2 ^ 32 ∧
    0 < (0xFFFFFFFF#64).toNat ∧ (0xFFFFFFFF#64).toNat < (0xFFFFFFFFFFFFFFFF#64).toNat := by decide
theorem witness_CeilIsNeverBelowTheExactValue :
    Ready (ready 591#64) 591#64 ∧ (ready 591#64).renormRound = .ceil ∧ (591#64).toNat % 2 ^ 32 ≠ 0 ∧ 591#64 ≠ 0#64 :=
  ⟨ready_ready _, rfl, by decide, by decide⟩
theorem witness_ExactWithoutRenormalisation :
    (Ready (ready 3#64) 3#64 ∧ (3#64).toNat % 2 ^ 32 ≠ 0 ∧
      ∀ k, k < 4 → (log2Loop (ready 3#64).renormRound 16 k (log2Init (input32 3#64))).w < 2 ^ 16) ∧
    (Ready (ready 5#64) 5#64 ∧ 5#64 ≠ 0#64 ∧
      ∀ k, k < 4 → (log2Loop (ready 5#64).renormRound 32 k (log2Init (input64 5#64))).w < 2 ^ 32) :=
  ⟨⟨ready_ready _, by decide +kernel⟩, ready_ready _, by decide +kernel⟩
theorem witness_ErrorBoundScenario :
    (Ready (ready 256#64) 256#64 ∧ 256 ≤ (256#64).toNat ∧ (256#64).toNat < 512) ∧
    (Ready (ready 511#64) 511#64 ∧ 256 ≤ (511#64).toNat ∧ (511#64).toNat < 512) :=
  ⟨⟨ready_ready _, by decide⟩, ready_ready _, by decide⟩
theorem witness_IntPartIsFloorOfLog2 :
    Ready (ready 0x80000000#64) 0x80000000#64 ∧ (0x80000000#64).toNat % 2 ^ 32 ≠ 0 ∧ 0x80000000#64 ≠ 0#64 :=
  ⟨ready_ready _, by decide, by decide⟩
theorem witness_Log2IsAFunctionOfItsInput :
    Ready (ready 3#64) 3#64 ∧ Ready (ready 0x100000003#64) 0x100000003#64 ∧
    (ready 3#64).renormRound = (ready 0x100000003#64).renormRound ∧
    (3#64).toNat % 2 ^ 32 = (0x100000003#64).toNat % 2 ^ 32 ∧ (3#64).toNat % 2 ^ 32 ≠ 0 ∧ 3#64 ≠ 0#64 :=
  ⟨ready_ready _, ready_ready _, rfl, by decide⟩
theorem witness_FaultsArePrecise :
    (readyWith 0#64 (cmdWrite 0x0001#16)).pending = cmdWrite 0x0001#16 :: [] ∧
    (nextOf (step (readyWith 0#64 (cmdWrite 0x0001#16)))).map (·.faulted) = some true ∧
    (nextOf (step (readyWith 0#64 (cmdWrite 0x0000#16)))).map (·.faulted) = some true := ⟨rfl, by decide⟩
theorem witness_StatusStaysLegal :
    StatusInv (readyWith 0#64 (cmdWrite 0x0001#16)) ∧ ∃ t, step (readyWith 0#64 (cmdWrite 0x0001#16)) = .next t :=
  ⟨by unfold StatusInv; decide, _, rfl⟩
theorem witness_ResultRegistersStayInRange :
    ResultInv (readyWith 3#64 (cmdWrite 0x1006#16)) ∧ ∃ t, step (readyWith 3#64 (cmdWrite 0x1006#16)) = .next t :=
  ⟨by unfold ResultInv; decide, _, rfl⟩
theorem witness_TablesNeverChange : ∃ t, step (readyWith 3#64 (cmdWrite 0x1006#16)) = .next t := ⟨_, rfl⟩
theorem witness_CommandFrame :
    (∃ t, exec .bsf64 (ready 0#64) = .next t ∧ t.status ≠ (ready 0#64).status) ∧ (∃ t, exec .bsr64 (ready 6#64) = .next t) ∧
    (∃ t, exec .msb8 (ready 0x100#64) = .next t) ∧ (∃ t, exec .msb16 (ready 6#64) = .next t) ∧
    (∃ t, exec .msb32 (ready 6#64) = .next t) ∧
    (∃ t, exec (.log2_32 28) (ready 0x100000000#64) = .next t ∧ (0x100000000#64).toNat % 2 ^ 32 = 0) ∧
    (∃ t, exec (.log2_64 30) (ready 0#64) = .next t) :=
  ⟨⟨_, rfl, by decide⟩, ⟨_, rfl⟩, ⟨_, rfl⟩, ⟨_, rfl⟩, ⟨_, rfl⟩, ⟨_, rfl, by decide⟩, ⟨_, rfl⟩⟩
theorem witness_UpperOperandBitsIgnored :
    (3#64).toNat % 2 ^ Claims.inputWidth (.log2_32 16) = (0x100000003#64).toNat % 2 ^ Claims.inputWidth (.log2_32 16) ∧
    (0x23#64).toNat % 2 ^ Claims.inputWidth .msb8 = (0x10023#64).toNat % 2 ^ Claims.inputWidth .msb8 ∧
    ¬ Claims.Draws .msb8 0x23#64 ∧
    ((0x100#64).toNat % 2 ^ Claims.inputWidth .msb8 = (0x10100#64).toNat % 2 ^ Claims.inputWidth .msb8 ∧
      Claims.Draws .msb8 0x100#64) ∧
    (∃ t, exec .msb8 { ready 0#64 with operand := .value 0x23#64 } = .next t) ∧
    ∃ t, exec .msb8 { ready 0#64 with operand := .value 0x100#64 } = .next t := by
  unfold Claims.Draws
  exact ⟨by decide, by decide, by decide, by decide, ⟨_, rfl⟩, _, rfl⟩
theorem witness_EarlierResultsAreNotRead :
    exec .msb16 (faultedWith .reset) = .fault .stuck ∧ exec .msb16 State.reset = .refused .operandUnwritten ∧
    ((∃ t, exec .msb16 (ready 6#64) = .next t) ∧ ¬ Claims.Draws .msb16 6#64) ∧
    ((∃ t, exec .msb8 (ready 0xFF00#64) = .next t) ∧ (ready 0xFF00#64).operand = .value 0xFF00#64 ∧
      Claims.Draws .msb8 0xFF00#64) := by
  unfold Claims.Draws
  exact ⟨rfl, rfl, ⟨⟨_, rfl⟩, by decide⟩, ⟨_, rfl⟩, rfl, by decide⟩
theorem witness_ForwardTableIsExact : 0x8000000000000000#64 ≠ 0#64 := by decide
theorem witness_ReverseTableIsExact : 1#64 ≠ 0#64 := by decide
theorem witness_MsbTableIsExact : (0xFF#16).toNat < 256 := by decide
theorem witness_FillMakesOnes : 64 ≤ 2 * 2 ^ 5 ∧ 0x8000000000000000#64 ≠ 0#64 ∧ 16 ≤ 2 * 2 ^ 3 := by decide
theorem witness_AssemblerExpansions :
    255 ≤ 255 ∧ 255 < 256 ∧ (Instr.log2_64 255).wellFormed = true ∧ (Instr.log2_32 256).wellFormed = false := by decide
theorem witness_LegalStatusFields : legalStatus 0x41#32 = true ∧ legalStatus 0x51#32 = false := by decide
theorem witness_InstancesAreIndependent :
    [State.reset, readyWith 1#64 .reset][1]? = some (readyWith 1#64 .reset) ∧ ∃ t, step (readyWith 1#64 .reset) = .next t :=
  ⟨rfl, _, rfl⟩

end Sys2Proof.Tests
end

section
/-! SUPPORT. What one step can do, flat, and what each effect of a command leaves unchanged: the rules the invariants and frames
below start from. -/

namespace Sys2Proof.Machine

/-- The state once the host's next action is taken off its list (20_memory.md R48). -/
def State.taken (s : State) : State := { s with pending := s.pending.tail }

/-- What a step that goes on can do: nothing, a read, an OPERAND write, an illegal word's fault, a command's effect with its word
kept, or reset. -/
inductive StepEffect (s : State) : State → Prop where
  | idle : StepEffect s s
  | read (r : Returned) : StepEffect s { s.taken with returned := s.returned ++ [r] }
  | operandWrite (v : Word64) : StepEffect s { s.taken with operand := .value v }
  | illegalWord : StepEffect s { s.taken with status := faultStatus .illegalCommand }
  | command (c : Word16) (u : State) (hu : Effect s.taken u) : StepEffect s (keepCommandWord c u)
  | reset : StepEffect s (resetBlock s.taken)

/-- The inversion lemmas of step, action, CMD write and command, composed. -/
theorem stepEffect_of_step {s t : State} (h : step s = .next t) : StepEffect s t := by
  obtain ⟨-, rfl⟩ | ⟨a, rest, hp, h⟩ := step_next h
  · exact .idle
  have htaken : { s with pending := rest } = s.taken := by simp [State.taken, hp]
  rw [htaken] at h
  obtain ⟨r, rfl⟩ | ⟨v, -, rfl⟩ | ⟨c, -, h⟩ | ⟨-, rfl⟩ := perform_next h
  · exact .read r
  · exact .operandWrite v
  · obtain ⟨-, ⟨-, rfl⟩ | ⟨i, u, -, hu, rfl⟩⟩ := runCommandWord_next h
    · exact .illegalWord
    · obtain ⟨v, -, he⟩ := exec_next hu
      exact .command c u he
  · exact .reset

/-- No command writes OPERAND, CMD, a table, the parameter or the host's lists (10_state.md R29, R35). -/
theorem Effect.frame {s t : State} (h : Effect s t) :
    t.operand = s.operand ∧ t.cmd = s.cmd ∧ t.tables = s.tables ∧ t.renormRound = s.renormRound ∧
      t.pending = s.pending ∧ t.returned = s.returned := by
  cases h <;> exact ⟨rfl, rfl, rfl, rfl, rfl, rfl⟩

/-- A command that changes STATUS faulted, and a fault writes nothing else (60_exceptions.md R172). -/
theorem Effect.only_status_of_status_ne {s t : State} (h : Effect s t) (hne : t.status ≠ s.status) :
    t = { s with status := t.status } := by
  cases h with
  | fault c => rfl
  | _ => exact absurd rfl hne

end Sys2Proof.Machine
end

section
/-! PROOFS. STATUS (10_state.md R25) and the constant tables (R29). -/

namespace Sys2Proof.Machine

/-- The five legal STATUS values as numbers. -/
theorem legalStatus_iff_toNat (st : Word32) :
    legalStatus st = true ↔
      st.toNat = 0 ∨ st.toNat = 0x11 ∨ st.toNat = 0x21 ∨ st.toNat = 0x31 ∨ st.toNat = 0x41 := by
  have h1 : (faultStatus .illegalCommand).toNat = 0x11 := by decide
  have h2 : (faultStatus .bsfZero).toNat = 0x21 := by decide
  have h3 : (faultStatus .bsrZero).toNat = 0x31 := by decide
  have h4 : (faultStatus .fracBitsExceeded).toNat = 0x41 := by decide
  simp only [legalStatus, Bool.or_eq_true, beq_iff_eq, ← BitVec.toNat_inj, h1, h2, h3, h4,
    BitVec.toNat_ofNat, Nat.zero_mod, or_assoc]

/-- Settles O45: the five legal values are the ones whose fields are as R25 says. -/
theorem legalStatusFields : Obligations.LegalStatusFields := by
  intro st
  rw [legalStatus_iff_toNat]
  omega

theorem Effect.keeps_statusInv {s t : State} (h : Effect s t) (hs : StatusInv s) : StatusInv t := by
  cases h with
  | fault c => exact legalStatus_faultStatus c
  | _ => exact hs

/-- Settles O46: a step leaves STATUS as it is, resets it, or records a fault's legal value. -/
theorem statusStaysLegal : Obligations.StatusStaysLegal := by
  intro s t hs h
  cases stepEffect_of_step h with
  | idle => exact hs
  | read r => exact hs
  | operandWrite v => exact hs
  | illegalWord => exact legalStatus_faultStatus _
  | command c u hu => simpa [StatusInv] using hu.keeps_statusInv hs
  | reset => exact (legalStatus_iff_toNat _).mpr (.inl rfl)

/-- Settles O49: the tables and the parameter are in the frame of every effect. -/
theorem tablesNeverChange : Obligations.TablesNeverChange := by
  intro s t h
  cases stepEffect_of_step h with
  | command c u hu =>
    obtain ⟨-, -, htables, hmode, -, -⟩ := hu.frame
    exact ⟨(keepCommandWord_tables c u).trans htables, (keepCommandWord_renormRound c u).trans hmode⟩
  | _ => exact ⟨rfl, rfl⟩

end Sys2Proof.Machine
end

section
/-! PROOFS. INT_PART and RESULT stay in range (10_state.md R23, R24; 42_fixed_point_log2.md R137, R144). -/

namespace Sys2Proof.Machine

/-- The extract step shifts the result bits left by one and appends one bit. -/
theorem squareAndExtract_r (st : LoopState) :
    (squareAndExtract st).r = st.r <<< 1 ||| 1#32 ∨ (squareAndExtract st).r = st.r <<< 1 := by
  unfold squareAndExtract
  dsimp only
  split
  · exact .inl rfl
  · exact .inr rfl

/-- Each iteration adds at most one result bit (R137). -/
theorem log2Iteration_r_lt {st : LoopState} {k : Nat} (mode : RenormRound) (half : Nat) (h : st.r.toNat < 2 ^ k) :
    (log2Iteration mode half st).r.toNat < 2 ^ (k + 1) := by
  have hshift : (st.r <<< 1).toNat < 2 ^ (k + 1) := by
    rw [BitVec.toNat_shiftLeft, Nat.shiftLeft_eq, pow_one, pow_succ]
    exact (Nat.mod_le _ _).trans_lt (by omega)
  rcases squareAndExtract_r (renormalise mode half st) with hr | hr <;>
    rw [log2Iteration, hr, renormalise_r]
  · rw [BitVec.toNat_or]
    exact Nat.or_lt_two_pow hshift (Nat.one_lt_two_pow (Nat.succ_ne_zero k))
  · exact hshift

/-- After f iterations from no result bits there are at most f of them (R137). -/
theorem log2Loop_r_lt {st : LoopState} (mode : RenormRound) (half : Nat) (h : st.r = 0#32) (f : Nat) :
    (log2Loop mode half f st).r.toNat < 2 ^ f := by
  induction f with
  | zero => simp [log2Loop, h]
  | succ f ih => exact log2Iteration_r_lt mode half ih

/-- The fraction of any input has F bits (R137). -/
theorem log2Fraction_lt {w : Nat} (mode : RenormRound) (half : Nat) (v : BitVec w) (f : Nat) :
    (log2Fraction mode half v f).toNat < 2 ^ f := by
  unfold log2Fraction
  split
  · exact Nat.two_pow_pos f
  · exact log2Loop_r_lt mode half rfl f

theorem intPartInRange_of_lt {v : Word32} (h : v.toNat < 64) : intPartInRange (.value v) = true := by
  simpa [intPartInRange] using h

theorem resultInRange_of_lt {v : Word32} (h : v.toNat < 2 ^ 30) : resultInRange (.value v) = true := by
  simp only [resultInRange, Bool.or_eq_true, decide_eq_true_eq]
  exact .inl h

/-- A free value is below 32 (41_msb_family.md R107). -/
theorem msb8Draw_lt (n : Nat) : ((Config.msb8Draw n).setWidth 32).toNat < 32 := by
  have := (Config.msb8Draw n).isLt
  rw [BitVec.toNat_setWidth]
  omega

/-- What a LOG2 command of at most 64 bits writes for a nonzero input is in range when F is at most 30 (R144). -/
theorem resultInv_fraction {w f : Nat} {v : BitVec w} (s : State) (half : Nat) (hv : v ≠ 0#w) (hw : w ≤ 64)
    (hf : f ≤ 30) :
    ResultInv (writeResult (log2Fraction s.renormRound half v f) (writeIntPart (BitVec.ofNat 32 (bsr v)) s)) := by
  constructor
  · apply intPartInRange_of_lt
    have := (bsr_spec hv).1
    rw [BitVec.toNat_ofNat]
    omega
  · apply resultInRange_of_lt
    exact (log2Fraction_lt _ half v f).trans_le (Nat.pow_le_pow_right two_pos hf)

theorem Effect.keeps_resultInv {s t : State} (h : Effect s t) (hs : ResultInv s) : ResultInv t := by
  cases h with
  | fault c => exact hs
  | index k hk =>
    refine ⟨hs.1, resultInRange_of_lt ?_⟩
    rw [BitVec.toNat_ofNat]
    omega
  | draw => exact ⟨hs.1, resultInRange_of_lt ((msb8Draw_lt _).trans (by decide))⟩
  | sentinel => exact ⟨hs.1, rfl⟩
  | fraction32 v f hv hf => exact resultInv_fraction s 16 hv (by decide) (by omega)
  | fraction64 v f hv hf => exact resultInv_fraction s 32 hv le_rfl hf

/-- Settles O47: only commands and reset write the result registers, and every effect of a command keeps them in range. -/
theorem resultRegistersStayInRange : Obligations.ResultRegistersStayInRange := by
  intro s t hs h
  cases stepEffect_of_step h with
  | idle => exact hs
  | read r => exact hs
  | operandWrite v => exact hs
  | illegalWord => exact hs
  | command c u hu => simpa [ResultInv] using hu.keeps_resultInv hs
  | reset => exact ⟨rfl, rfl⟩

end Sys2Proof.Machine
end

section
/-! PROOFS. A command as the write its operand selects: the frame of each command, and that nothing but the low bits of OPERAND and
the parameter selects it (10_state.md R21, R34, R35). -/

namespace Sys2Proof.Machine

open Sys2Proof.Claims

/-- What a command that runs does to the registers. -/
inductive CommandWrite where
  | fault (c : Cause)
  | result (r : Word32)
  | fraction (intPart r : Word32)
  | draw

/-- The state a write leaves. -/
def CommandWrite.apply : CommandWrite → State → State
  | .fault c, s => { s with status := faultStatus c }
  | .result r, s => writeResult r s
  | .fraction i r, s => writeResult r (writeIntPart i s)
  | .draw, s => drawResult s

/-- The write LOG2CORE selects (42_fixed_point_log2.md R132, R133). -/
def log2Write {w : Nat} (mode : RenormRound) (half cap : Nat) (v : BitVec w) (f : Nat) : CommandWrite :=
  if cap < f then .fault .fracBitsExceeded
  else if v = 0#w then .result log2Sentinel
  else .fraction (BitVec.ofNat 32 (bsr v)) (log2Fraction mode half v f)

/-- The write a command selects from OPERAND's value and the parameter. -/
def commandWrite (mode : RenormRound) (v : Word64) : Instr → CommandWrite
  | .bsf64 => if input64 v = 0#64 then .fault .bsfZero else .result (BitVec.ofNat 32 (bsf (input64 v)))
  | .bsr64 => if input64 v = 0#64 then .fault .bsrZero else .result (BitVec.ofNat 32 (bsr (input64 v)))
  | .msb8 =>
    if msb8HighByte (input16 v) = 0#8 then .result (BitVec.ofNat 32 (msbIndex (input16 v))) else .draw
  | .msb16 => .result (BitVec.ofNat 32 (msbIndex (input16 v)))
  | .msb32 => .result (BitVec.ofNat 32 (msbIndex (input32 v)))
  | .log2_32 f => log2Write mode 16 28 (input32 v) f
  | .log2_64 f => log2Write mode 32 30 (input64 v) f

theorem log2Core_eq_log2Write {w : Nat} (half cap : Nat) (v : BitVec w) (f : Nat) (s : State) :
    log2Core half cap v f s = .next ((log2Write s.renormRound half cap v f).apply s) := by
  unfold log2Core log2Write
  split_ifs <;> rfl

/-- A command that may run goes on, with the write its operand selects. -/
theorem exec_of_ready {s : State} {v : Word64} (i : Instr) (hr : Ready s v) :
    exec i s = .next ((commandWrite s.renormRound v i).apply s) := by
  obtain ⟨hf, hv⟩ := hr
  have htake : ∀ run : Word64 → Answer, takeCommand s run = run v := fun _ => takeCommand_of_ready hf hv
  cases i with
  | bsf64 => simp only [exec, execBsf64, htake, commandWrite]; split_ifs <;> rfl
  | bsr64 => simp only [exec, execBsr64, htake, commandWrite]; split_ifs <;> rfl
  | msb8 => simp only [exec, execMsb8, htake, commandWrite]; split_ifs <;> rfl
  | msb16 => exact htake _
  | msb32 => exact htake _
  | log2_32 f => exact (htake _).trans (log2Core_eq_log2Write ..)
  | log2_64 f => exact (htake _).trans (log2Core_eq_log2Write ..)

theorem exec_next_eq_apply {i : Instr} {s t : State} (h : exec i s = .next t) :
    ∃ v, Ready s v ∧ t = (commandWrite s.renormRound v i).apply s := by
  obtain ⟨v, hr, -⟩ := exec_next h
  rw [exec_of_ready i hr] at h
  cases h
  exact ⟨v, hr, rfl⟩

/-! ### The frame -/

section Frame
variable (mode : RenormRound) (s : State) {v : Word64}

/-- A scan writes RESULT or faults, and leaves INT_PART and the draws alone. -/
theorem scan_frame {i : Instr} (hi : i = .bsf64 ∨ i = .bsr64) :
    ((commandWrite mode v i).apply s).intPart = s.intPart ∧ ((commandWrite mode v i).apply s).draws = s.draws := by
  rcases hi with rfl | rfl <;> unfold commandWrite <;> split_ifs <;> exact ⟨rfl, rfl⟩

/-- MSB16 and MSB32 write RESULT only. -/
theorem msb_frame {i : Instr} (hi : i = .msb16 ∨ i = .msb32) :
    ((commandWrite mode v i).apply s).intPart = s.intPart ∧ ((commandWrite mode v i).apply s).draws = s.draws ∧
      ((commandWrite mode v i).apply s).status = s.status := by
  rcases hi with rfl | rfl <;> exact ⟨rfl, rfl, rfl⟩

/-- MSB8 writes RESULT, drawn or not. -/
theorem msb8_frame :
    ((commandWrite mode v .msb8).apply s).intPart = s.intPart ∧ ((commandWrite mode v .msb8).apply s).status = s.status := by
  unfold commandWrite; split_ifs <;> exact ⟨rfl, rfl⟩

variable {w : Nat} (half cap : Nat) (x : BitVec w) (f : Nat)

theorem log2Write_draws : ((log2Write mode half cap x f).apply s).draws = s.draws := by
  unfold log2Write; split_ifs <;> rfl

/-- LOG2CORE faults only above the cap (42_fixed_point_log2.md R133). -/
theorem log2Write_status (hf : f ≤ cap) : ((log2Write mode half cap x f).apply s).status = s.status := by
  rw [log2Write, if_neg (by omega)]; split_ifs <;> rfl

/-- LOG2CORE writes no integer part for the input 0 (42_fixed_point_log2.md R133). -/
theorem log2Write_intPart_of_zero : ((log2Write mode half cap 0#w f).apply s).intPart = s.intPart := by
  rw [log2Write, if_pos rfl]; split_ifs <;> rfl

end Frame

/-- Settles O50: the shared frame is that of every effect, the rest is read off the write each command selects. -/
theorem commandFrame : Obligations.CommandFrame := by
  intro i s t h
  obtain ⟨_, -, he⟩ := exec_next h
  refine ⟨he.frame, he.only_status_of_status_ne, ?_⟩
  obtain ⟨v, hr, rfl⟩ := exec_next_eq_apply h
  refine ⟨scan_frame _ s, msb_frame _ s, ?_, ?_, ?_, ?_, ?_⟩
  · rintro rfl
    exact msb8_frame _ s
  · rintro f rfl
    exact ⟨log2Write_draws .., log2Write_status _ _ _ _ _ _⟩
  · rintro f rfl
    exact ⟨log2Write_draws .., log2Write_status _ _ _ _ _ _⟩
  · rintro f v' rfl hv' h0
    obtain rfl : v = v' := by simpa [hr.2] using hv'
    rw [commandWrite, (input32_eq_zero v).mpr h0]
    exact log2Write_intPart_of_zero ..
  · rintro f rfl hv'
    obtain rfl : v = 0#64 := by simpa [hr.2] using hv'
    exact log2Write_intPart_of_zero ..

/-! ### What selects the write -/

/-- Only the bits of the command's input width select its write (10_state.md R21). -/
theorem commandWrite_congr (mode : RenormRound) {v v' : Word64} {i : Instr}
    (h : v.toNat % 2 ^ inputWidth i = v'.toNat % 2 ^ inputWidth i) : commandWrite mode v i = commandWrite mode v' i := by
  have h64 : v.toNat % 2 ^ 64 = v'.toNat % 2 ^ 64 → v = v' := fun h => by
    simpa [Nat.mod_eq_of_lt, v.isLt, v'.isLt, BitVec.toNat_inj] using h
  have h32 : v.toNat % 2 ^ 32 = v'.toNat % 2 ^ 32 → input32 v = input32 v' := fun h =>
    BitVec.eq_of_toNat_eq (by rw [input32_toNat, input32_toNat, h])
  have h16 : v.toNat % 2 ^ 16 = v'.toNat % 2 ^ 16 → input16 v = input16 v' := fun h =>
    BitVec.eq_of_toNat_eq (by rw [input16_toNat, input16_toNat, h])
  cases i with
  | bsf64 => rw [h64 h]
  | bsr64 => rw [h64 h]
  | msb8 => simp only [commandWrite, h16 h]
  | msb16 => simp only [commandWrite, h16 h]
  | msb32 => simp only [commandWrite, h32 h]
  | log2_32 f => simp only [commandWrite, h32 h]
  | log2_64 f => rw [h64 h]

theorem msb8HighByte_eq_zero_iff (v : Word64) : msb8HighByte (input16 v) = 0#8 ↔ v.toNat / 2 ^ 8 % 2 ^ 8 = 0 := by
  rw [← BitVec.toNat_inj, msb8HighByte, BitVec.extractLsb'_toNat, input16_toNat, Nat.shiftRight_eq_div_pow]
  simp only [BitVec.toNat_ofNat]
  omega

/-- Where a command draws, its write is the draw. -/
theorem commandWrite_of_draws (mode : RenormRound) {i : Instr} {v : Word64} (h : Draws i v) :
    commandWrite mode v i = .draw := by
  obtain ⟨rfl, hv⟩ := h
  exact if_neg (mt (msb8HighByte_eq_zero_iff v).mp hv)

/-- A drawn RESULT is the next free value. -/
theorem exec_result_of_draws {i : Instr} {s t : State} {v : Word64} (hv : s.operand = .value v) (hd : Draws i v)
    (h : exec i s = .next t) : t.result = .value ((Config.msb8Draw s.draws).setWidth 32) := by
  obtain ⟨u, ⟨-, hu⟩, rfl⟩ := exec_next_eq_apply h
  obtain rfl : u = v := by simpa [hu] using hv
  rw [commandWrite_of_draws _ hd]
  rfl

/-- The checks that come before any command, as a case split (60_exceptions.md R174). -/
theorem ready_cases (s : State) :
    s.faulted = true ∨ (s.faulted = false ∧ s.operand = .unwritten) ∨ ∃ v, Ready s v := by
  cases hf : s.faulted with
  | true => exact .inl rfl
  | false =>
    cases ho : s.operand with
    | unwritten => exact .inr (.inl ⟨rfl, rfl⟩)
    | value v => exact .inr (.inr ⟨v, hf, ho⟩)

/-! ### OPERAND above the input width -/

/-- `s` with the value `v` in OPERAND. -/
def State.withOperand (s : State) (v : Word64) : State := { s with operand := .value v }

/-- No write reads or writes OPERAND. -/
theorem apply_withOperand (cw : CommandWrite) (s : State) (v : Word64) :
    cw.apply (s.withOperand v) = (cw.apply s).withOperand v := by
  cases cw <;> rfl

theorem exec_withOperand_of_not_faulted {s : State} (i : Instr) (v : Word64) (hf : s.faulted = false) :
    exec i (s.withOperand v) = .next (((commandWrite s.renormRound v i).apply s).withOperand v) := by
  have hr : Ready (s.withOperand v) v := ⟨hf, rfl⟩
  rw [exec_of_ready i hr, apply_withOperand]
  rfl

/-- Operands that agree on the input width give the same answer but for OPERAND, drawn or not. -/
theorem exec_withOperand_congr (s : State) {i : Instr} {v v' : Word64}
    (h : v.toNat % 2 ^ inputWidth i = v'.toNat % 2 ^ inputWidth i) :
    exec i (s.withOperand v') = mapNext (·.withOperand v') (exec i (s.withOperand v)) := by
  cases hf : s.faulted with
  | true =>
    have hstuck : ∀ u, exec i (s.withOperand u) = .fault .stuck := fun _ => exec_of_faulted i hf
    rw [hstuck, hstuck]
    rfl
  | false =>
    rw [exec_withOperand_of_not_faulted i v hf, exec_withOperand_of_not_faulted i v' hf, commandWrite_congr _ h]
    rfl

theorem mapNext_congr {f g : State → State} {a : Answer} (h : ∀ t, a = .next t → f t = g t) :
    mapNext f a = mapNext g a := by
  cases a with
  | next t => exact congrArg _ (h t rfl)
  | fault e => rfl
  | refused e => rfl

/-- Settles O51: the write is selected by the low bits of OPERAND, and a drawn RESULT is a free value below 32. -/
theorem upperOperandBitsIgnored : Obligations.UpperOperandBitsIgnored := by
  intro i s v v' h
  refine ⟨fun _ => exec_withOperand_congr s h, fun hd => ?_, fun t ht => ?_⟩
  · have hres : ∀ t, exec i (s.withOperand v) = .next t →
        t.result = .value ((Config.msb8Draw s.draws).setWidth 32) := fun t ht =>
      exec_result_of_draws (s := s.withOperand v) rfl hd ht
    refine ⟨_, _, msb8Draw_lt s.draws, msb8Draw_lt s.draws, (exec_withOperand_congr s h).trans ?_, hres⟩
    exact mapNext_congr fun t ht => by rw [← hres t ht]; rfl
  · obtain ⟨_, -, he⟩ := exec_next ht
    exact he.frame.1

/-! ### What RESULT, INT_PART and CMD held before -/

/-- `s` with other contents of RESULT, INT_PART and CMD. -/
def State.withEarlier (s : State) (x y : Contents 32) (z : Contents 16) : State :=
  { s with result := x, intPart := y, cmd := z }

section Earlier
variable (cw : CommandWrite) (s : State) (x y : Contents 32) (z : Contents 16)

/-- A write changes RESULT and INT_PART at most, among the registers that held earlier results. -/
theorem apply_withEarlier :
    cw.apply (s.withEarlier x y z) =
      (cw.apply s).withEarlier (cw.apply (s.withEarlier x y z)).result (cw.apply (s.withEarlier x y z)).intPart z := by
  cases cw <;> rfl

/-- RESULT after a write is the written value, or what it was. -/
theorem apply_withEarlier_result :
    (cw.apply (s.withEarlier x y z)).result = (cw.apply s).result ∨
      ((cw.apply s).result = s.result ∧ (cw.apply (s.withEarlier x y z)).result = x) := by
  cases cw with
  | fault c => exact .inr ⟨rfl, rfl⟩
  | _ => exact .inl rfl

/-- INT_PART after a write is the written value, or what it was. -/
theorem apply_withEarlier_intPart :
    (cw.apply (s.withEarlier x y z)).intPart = (cw.apply s).intPart ∨
      ((cw.apply s).intPart = s.intPart ∧ (cw.apply (s.withEarlier x y z)).intPart = y) := by
  cases cw with
  | fraction i r => exact .inl rfl
  | _ => exact .inr ⟨rfl, rfl⟩

end Earlier

/-- Settles O52: the checks and the write that a command selects depend on STATUS, OPERAND and the parameter only. -/
theorem earlierResultsAreNotRead : Obligations.EarlierResultsAreNotRead := by
  intro i s x y z
  change (∀ e, _ → exec i (s.withEarlier x y z) = _) ∧ (∀ e, _ → exec i (s.withEarlier x y z) = _) ∧
    ∀ t : State, _ → ∃ a b, exec i (s.withEarlier x y z) = .next (t.withEarlier a b z) ∧ _
  obtain hf | ⟨hf, ho⟩ | ⟨v, hr⟩ := ready_cases s
  · have hs' : exec i (s.withEarlier x y z) = .fault .stuck := exec_of_faulted i hf
    simp [exec_of_faulted i hf, hs']
  · have hs' : exec i (s.withEarlier x y z) = .refused .operandUnwritten := exec_of_unwritten i hf ho
    simp [exec_of_unwritten i hf ho, hs']
  · have hs' : exec i (s.withEarlier x y z) = .next ((commandWrite s.renormRound v i).apply (s.withEarlier x y z)) :=
      exec_of_ready i hr
    have hs := exec_of_ready i hr
    refine ⟨fun e he => (by rw [hs] at he; cases he), fun e he => (by rw [hs] at he; cases he), fun t ht => ?_⟩
    obtain rfl : (commandWrite s.renormRound v i).apply s = t := by rw [hs] at ht; cases ht; rfl
    refine ⟨_, _, hs'.trans (congrArg _ (apply_withEarlier ..)), fun _ _ _ => apply_withEarlier_result ..,
      fun v' hv' hd => ?_, apply_withEarlier_intPart ..⟩
    exact ⟨_, _, exec_result_of_draws hv' hd hs, exec_result_of_draws (s := s.withEarlier x y z) hv' hd hs',
      msb8Draw_lt _, msb8Draw_lt _⟩

end Sys2Proof.Machine
end

section
/-! PROOFS. Reset and single accesses (10_state.md R22, R31 to R33). -/

namespace Sys2Proof.Machine

/-! ### Reset -/

/-- Settles O6: `State.reset` gives each register as R33 says. -/
theorem resetState : Obligations.ResetState := ⟨rfl, rfl, rfl, rfl, rfl⟩

/-- Settles O48: STATUS is 0, and UNWRITTEN result registers are in range. -/
theorem resetMeetsTheInvariants : Obligations.ResetMeetsTheInvariants :=
  ⟨(legalStatus_iff_toNat _).mpr (.inl rfl), rfl, rfl⟩

/-! ### CMD writes -/

theorem keepCommandWord_of_faulted {c : Word16} {s : State} (h : s.faulted = true) : keepCommandWord c s = s := by
  rw [keepCommandWord_eq, if_pos h]

theorem keepCommandWord_of_not_faulted {c : Word16} {s : State} (h : s.faulted = false) :
    keepCommandWord c s = { s with cmd := .value c } := by
  rw [keepCommandWord_eq, h]
  rfl

/-- Settles O8: the step is `exec` with the word kept around it, and `exec` itself never writes CMD. -/
theorem stepRunsDecodedCommand : Obligations.StepRunsDecodedCommand := by
  intro s c rest i hp hc
  have hstep : step s = mapNext (keepCommandWord c) (exec i { s with pending := rest }) := by
    rw [step_cmdWrite hp, runCommandWord_ok hc]
  refine ⟨hstep, fun t ht => ?_⟩
  have hnext : step s = .next (keepCommandWord c t) := by rw [hstep, ht]; rfl
  obtain ⟨_, -, he⟩ := exec_next ht
  obtain ⟨-, hcmd, -⟩ := he.frame
  refine ⟨fun hf => ?_, fun hf => ?_⟩
  · rw [hnext, keepCommandWord_of_not_faulted hf]
  · rw [hnext, keepCommandWord_of_faulted hf, ← show t.cmd = s.cmd from hcmd]

/-! ### Reads and OPERAND writes -/

section Reads
variable {w : Nat} {reg : Reg} {c : Contents w} {mk : BitVec w → Returned} {s : State}

theorem returnContents_of_unwritten (h : c = .unwritten) :
    returnContents reg c mk s = .refused (.readUnwritten reg) := by
  rw [h]; rfl

theorem returnContents_of_value {v : BitVec w} (h : c = .value v) :
    returnContents reg c mk s = .next { s with returned := s.returned ++ [mk v] } := by
  rw [h]; rfl

end Reads

/-- Settles O11: a read answers from the register's contents, and a command's checks come before it. -/
theorem unwrittenIsRefused : Obligations.UnwrittenIsRefused := by
  intro s rest
  refine ⟨fun h hp => ?_, fun h hp => ?_, fun c hf ho hp => ?_, fun h hp => ?_⟩
  · rw [step_regRead hp]; exact returnContents_of_unwritten h
  · rw [step_regRead hp]; exact returnContents_of_unwritten h
  · rw [step_cmdWrite hp]; exact runCommandWord_of_unwritten c hf ho
  · rw [step_regRead hp]; exact returnContents_of_unwritten h

/-- Settles O14: STATUS always has a value to return, the other registers when they are written. -/
theorem readsAndOperandWrites : Obligations.ReadsAndOperandWrites := by
  intro s rest
  refine ⟨fun hp => ?_, fun v h hp => ?_, fun v h hp => ?_, fun v h hp => ?_, fun v hp => step_operandWrite hp⟩
  · rw [step_regRead hp]; rfl
  · rw [step_regRead hp]; exact returnContents_of_value h
  · rw [step_regRead hp]; exact returnContents_of_value h
  · rw [step_regRead hp]; exact returnContents_of_value h

/-! ### Accesses without a right -/

section Refusals
variable {number width : Nat} (s : State)

theorem ofNumber_of_five_le (h : 5 ≤ number) : Reg.ofNumber number = none := by
  obtain ⟨n, rfl⟩ := Nat.exists_eq_add_of_le' h
  rfl

theorem hostRead_of_five_le (h : 5 ≤ number) : hostRead number width s = .refused (.noSuchRegister number) := by
  simp only [hostRead, ofNumber_of_five_le h]

theorem hostWrite_of_five_le (v : BitVec width) (h : 5 ≤ number) :
    hostWrite number width v s = .refused (.noSuchRegister number) := by
  simp only [hostWrite, ofNumber_of_five_le h]

/-- CMD is not readable, at its own width or another. -/
theorem hostRead_cmd_refused : ∃ e, hostRead 1 width s = .refused e := by
  by_cases hw : width = Reg.width .cmd
  · exact ⟨.notReadable .cmd, if_pos hw⟩
  · exact ⟨.wrongWidth .cmd, if_neg hw⟩

/-- A register whose full-width writes are refused is not writable at any width. -/
theorem hostWrite_refused {reg : Reg} (hreg : Reg.ofNumber number = some reg)
    (h : ∀ u, writeReg reg u s = .refused (.notWritable reg)) (v : BitVec width) :
    ∃ e, hostWrite number width v s = .refused e := by
  simp only [hostWrite, hreg]
  split_ifs with hw
  · exact ⟨_, h _⟩
  · exact ⟨_, rfl⟩

end Refusals

/-- Settles O15: number by number, by the register map's rights. -/
theorem otherAccessesRefused : Obligations.OtherAccessesRefused := by
  intro s rest width v
  refine ⟨fun hp => ?_, fun number hn hp => ?_, fun number hn hp => ?_, fun number hn hp => ?_⟩ <;>
    rw [step_of_pending hp]
  · exact hostRead_cmd_refused _
  · obtain rfl | rfl | rfl := hn
    · exact hostWrite_refused (number := 2) (reg := .result) _ rfl (fun _ => rfl) v
    · exact hostWrite_refused (number := 3) (reg := .intPart) _ rfl (fun _ => rfl) v
    · exact hostWrite_refused (number := 4) (reg := .status) _ rfl (fun _ => rfl) v
  · exact hostRead_of_five_le _ hn
  · exact hostWrite_of_five_le _ v hn

end Sys2Proof.Machine
end

section
/-! PROOFS. The host interface (20_memory.md R42, R43, R48, R49). -/

namespace Sys2Proof.Machine

/-! ### The byte bus -/

section Bus
variable {w n : Nat} (order : Equiv.Perm (Fin n))

theorem getElem?_bytesInOrder (v : BitVec w) (i : Fin n) :
    (bytesInOrder order v)[i.val]? = some (v.extractLsb' (8 * (order i).val) 8) := by
  simp [bytesInOrder]

/-- The position the order gives byte k carries byte k. -/
theorem getD_bytesInOrder_symm (v : BitVec w) (k : Fin n) :
    (bytesInOrder order v).getD (order.symm k).val 0#8 = v.extractLsb' (8 * k.val) 8 := by
  rw [List.getD_eq_getElem?_getD, getElem?_bytesInOrder, Option.getD_some, Equiv.apply_symm_apply]

/-- Cutting and assembling undo each other where the bytes make up the whole value: bit j comes back out of byte `j / 8`. -/
theorem valueInOrder_bytesInOrder (v : BitVec w) (hw : w = 8 * n) :
    valueInOrder w order (bytesInOrder order v) = v := by
  apply BitVec.eq_of_getLsbD_eq
  intro j hj
  have hk : j / 8 < n := by omega
  have hbyte : (List.ofFn fun k => (bytesInOrder order v).getD (order.symm k).val 0#8).getD (j / 8) 0#8 =
      v.extractLsb' (8 * (j / 8)) 8 := by
    rw [List.getD_eq_getElem _ _ (by simpa using hk), List.getElem_ofFn, getD_bytesInOrder_symm]
  rw [valueInOrder, getLsbD_ofBytes, hbyte, BitVec.getLsbD_extractLsb', Nat.div_add_mod]
  simp [hj, Nat.mod_lt]

end Bus

/-- Every register is a whole number of bytes (10_state.md R20). -/
theorem Reg.width_eq_bytes (reg : Reg) : reg.width = 8 * (reg.width / 8) := by cases reg <;> rfl

/-- Settles O58: the round trip for any order, at the order the open parameter is. -/
theorem busBytesKeepTheValue : Obligations.BusBytesKeepTheValue := fun reg v =>
  ⟨valueInOrder_bytesInOrder _ v reg.width_eq_bytes, length_bytesInOrder _ v, getElem?_bytesInOrder _ v⟩

/-! ### Issue order -/

/-- No action of the host's touches the list of those still to come. -/
theorem pending_of_perform {a : HostAction} {s t : State} (h : perform a s = .next t) : t.pending = s.pending := by
  obtain ⟨r, rfl⟩ | ⟨v, -, rfl⟩ | ⟨c, -, h⟩ | ⟨-, rfl⟩ := perform_next h
  · rfl
  · rfl
  · obtain ⟨-, ⟨-, rfl⟩ | ⟨i, u, -, hu, rfl⟩⟩ := runCommandWord_next h
    · rfl
    · obtain ⟨v, -, heffect⟩ := exec_next hu
      obtain ⟨-, -, -, -, hpending, -⟩ := heffect.frame
      rw [keepCommandWord_pending, hpending]
  · rfl

/-- Settles O9: a step with nothing pending changes nothing, and any other takes one action off before it performs it. -/
theorem everyStepTakesTheNextAction : Obligations.EveryStepTakesTheNextAction := by
  intro s t h
  obtain ⟨hp, rfl⟩ | ⟨a, rest, hp, h⟩ := step_next h
  · rw [hp]; rfl
  · rw [hp]; exact pending_of_perform h

/-! ### Accesses at another width and by another host -/

section Refusals
variable {reg : Reg} {width : Nat} (s : State)

theorem hostRead_of_width_ne (h : width ≠ reg.width) : hostRead reg.number width s = .refused (.wrongWidth reg) := by
  simp only [hostRead, ofNumber_number, if_neg h]

theorem hostWrite_of_width_ne (v : BitVec width) (h : width ≠ reg.width) :
    hostWrite reg.number width v s = .refused (.wrongWidth reg) := by
  simp only [hostWrite, ofNumber_number, dif_neg h]

end Refusals

/-- Settles O16: the width is looked at before the register's rights and before FAULT. -/
theorem otherWidthsRefused : Obligations.OtherWidthsRefused := by
  intro s rest reg width v hw
  refine ⟨fun hp => ?_, fun hp => ?_⟩ <;> rw [step_of_pending hp]
  · exact hostRead_of_width_ne _ hw
  · exact hostWrite_of_width_ne _ v hw

/-- Settles O17: `perform` refuses either access of another host. -/
theorem secondHostRefused : Obligations.SecondHostRefused :=
  fun _ _ _ _ _ => ⟨step_of_pending, step_of_pending⟩

end Sys2Proof.Machine
end

section
/-! PROOFS. Decoding and encoding of the command word undo each other (30_encoding.md R60 to R62, R67, R69). -/

namespace Sys2Proof

/-- A word is a command's own exactly when its fields are the command's (R60). -/
theorem encode_eq_iff {i : Instr} {c : Word16} :
    encode i = c ↔ i.op = opField c ∧ i.frac = fracField c ∧ rsvField c = 0#4 := by
  constructor
  · rintro rfl
    obtain ⟨hop, hrsv, hfrac⟩ := Laws.WordFields.fields_append i.frac i.op
    exact ⟨hop.symm, hfrac.symm, hrsv⟩
  · rintro ⟨hop, hfrac, hrsv⟩
    rw [encode, hop, hfrac, ← hrsv, fields_eq_word]

/-- A word decodes to what its OP selects when RSV is 0, and to nothing otherwise (R64). -/
theorem decode_eq_ok_iff_decodeOp {c : Word16} {i : Instr} :
    decode c = .ok i ↔ decodeOp (opField c) (fracField c) = .ok i ∧ rsvField c = 0#4 := by
  unfold decode
  split
  case h_1 h => simp [h]
  case h_2 => split_ifs with hrsv <;> simp [hrsv]

/-- A command without F is selected by its own OP and a FRAC of 0 only. -/
theorem fields_of_decodeWithoutFrac {j i : Instr} {op : BitVec 4} {frac : BitVec 8} (h : decodeWithoutFrac j frac = .ok i)
    (hwf : j.wellFormed = true) (hfrac : j.frac = 0#8) (hop : op.toNat = j.op.toNat) :
    i.wellFormed = true ∧ i.op = op ∧ i.frac = frac := by
  unfold decodeWithoutFrac at h
  split_ifs at h with h0
  cases h
  exact ⟨hwf, (BitVec.eq_of_toNat_eq hop).symm, hfrac.trans h0.symm⟩

/-- What OP and FRAC select is well formed and has that OP and FRAC (R61, R62). -/
theorem fields_of_decodeOp {op : BitVec 4} {frac : BitVec 8} {i : Instr} (h : decodeOp op frac = .ok i) :
    i.wellFormed = true ∧ i.op = op ∧ i.frac = frac := by
  have hlt : frac.toNat ≤ 255 := Nat.le_of_lt_succ frac.isLt
  unfold decodeOp at h
  split at h
  case h_1 hop => exact fields_of_decodeWithoutFrac h rfl rfl hop
  case h_2 hop => exact fields_of_decodeWithoutFrac h rfl rfl hop
  case h_3 hop => exact fields_of_decodeWithoutFrac h rfl rfl hop
  case h_4 hop => exact fields_of_decodeWithoutFrac h rfl rfl hop
  case h_5 hop => exact fields_of_decodeWithoutFrac h rfl rfl hop
  case h_6 hop =>
    cases h
    exact ⟨decide_eq_true hlt, (BitVec.eq_of_toNat_eq hop).symm, BitVec.eq_of_toNat_eq (by simp [Instr.frac])⟩
  case h_7 hop =>
    cases h
    exact ⟨decide_eq_true hlt, (BitVec.eq_of_toNat_eq hop).symm, BitVec.eq_of_toNat_eq (by simp [Instr.frac])⟩
  case h_8 => cases h

/-- The OP and FRAC of a well-formed command select it, F fitting its field (R62). -/
theorem decodeOp_fields {i : Instr} (h : i.wellFormed = true) : decodeOp i.op i.frac = .ok i := by
  have hfrac : ∀ f, decide (f ≤ 255) = true → (BitVec.ofNat 8 f).toNat = f := fun f hf => by
    have := of_decide_eq_true hf
    exact Nat.mod_eq_of_lt (by omega)
  cases i with
  | log2_32 f => exact congrArg (Except.ok ∘ Instr.log2_32) (hfrac f h)
  | log2_64 f => exact congrArg (Except.ok ∘ Instr.log2_64) (hfrac f h)
  | _ => rfl

/-- The legal words are the words of the well-formed commands, each decoding to its own (R69). -/
theorem decode_eq_ok_iff {c : Word16} {i : Instr} : decode c = .ok i ↔ i.wellFormed = true ∧ encode i = c := by
  rw [decode_eq_ok_iff_decodeOp, encode_eq_iff]
  constructor
  · rintro ⟨h, hrsv⟩
    obtain ⟨hwf, hop, hfrac⟩ := fields_of_decodeOp h
    exact ⟨hwf, hop, hfrac, hrsv⟩
  · rintro ⟨hwf, hop, hfrac, hrsv⟩
    rw [← hop, ← hfrac]
    exact ⟨decodeOp_fields hwf, hrsv⟩

/-- Settles O1: the command itself is what makes its word legal. -/
theorem decodeOfEncode : Obligations.DecodeOfEncode := fun _ h => decode_eq_ok_iff.mpr ⟨h, rfl⟩

/-- Settles O2: a decoded command has the word's fields. -/
theorem encodeOfDecode : Obligations.EncodeOfDecode := fun _ _ => decode_eq_ok_iff.mp

end Sys2Proof
end

section
/-! PROOFS. Which words are legal, and the opcode map that selects their commands (30_encoding.md R64, R65, R68). -/

namespace Sys2Proof

/-! ### The legal words -/

/-- `legal` as the three conditions of R64 on the fields. -/
theorem legal_iff_fields (c : Word16) :
    legal c = true ↔ (1 ≤ (opField c).toNat ∧ (opField c).toNat ≤ 7) ∧ rsvField c = 0#4 ∧
      (opField c = 6#4 ∨ opField c = 7#4 ∨ fracField c = 0#8) := by
  simp only [legal, Bool.and_eq_true, Bool.or_eq_true, decide_eq_true_eq, beq_iff_eq, and_assoc, or_assoc]

/-- `legal` as the three conditions of R64 on the word's number. -/
theorem legal_iff_toNat (c : Word16) :
    legal c = true ↔ (1 ≤ c.toNat % 16 ∧ c.toNat % 16 ≤ 7) ∧ c.toNat / 16 % 16 = 0 ∧
      (c.toNat % 16 = 6 ∨ c.toNat % 16 = 7 ∨ c.toNat / 256 = 0) := by
  simp only [legal_iff_fields, ← BitVec.toNat_inj, opField_toNat, rsvField_toNat, fracField_toNat]
  rfl

/-- Every command's OP is 1 to 7, and FRAC is 0 but for the two LOG2 commands (R61). -/
theorem Instr.op_frac_range (i : Instr) :
    (1 ≤ i.op.toNat ∧ i.op.toNat ≤ 7) ∧ (i.op = 6#4 ∨ i.op = 7#4 ∨ i.frac = 0#8) := by
  cases i with
  | log2_32 f => exact ⟨show 1 ≤ (6#4).toNat ∧ (6#4).toNat ≤ 7 by decide, .inl rfl⟩
  | log2_64 f => exact ⟨show 1 ≤ (7#4).toNat ∧ (7#4).toNat ≤ 7 by decide, .inr (.inl rfl)⟩
  | _ => exact ⟨by decide, .inr (.inr rfl)⟩

/-- Each OP from 1 to 7 has a command, with any FRAC where OP is 6 or 7 (R61). -/
theorem exists_decodeOp_eq_ok {op : BitVec 4} {frac : BitVec 8} (hop : 1 ≤ op.toNat ∧ op.toNat ≤ 7)
    (hfrac : op = 6#4 ∨ op = 7#4 ∨ frac = 0#8) : ∃ i, decodeOp op frac = .ok i := by
  obtain rfl | rfl | rfl := hfrac
  · exact ⟨_, rfl⟩
  · exact ⟨_, rfl⟩
  · obtain ⟨h1, h7⟩ := hop
    unfold decodeOp
    interval_cases op.toNat <;> exact ⟨_, rfl⟩

/-- A word is legal exactly when it decodes (R64, R69). -/
theorem legal_iff_decode (c : Word16) : legal c = true ↔ ∃ i, decode c = .ok i := by
  simp only [decode_eq_ok_iff_decodeOp, exists_and_right, legal_iff_fields]
  constructor
  · rintro ⟨hop, hrsv, hfrac⟩
    exact ⟨exists_decodeOp_eq_ok hop hfrac, hrsv⟩
  · rintro ⟨⟨i, h⟩, hrsv⟩
    obtain ⟨-, hop, hfrac⟩ := fields_of_decodeOp h
    obtain ⟨hrange, hzero⟩ := i.op_frac_range
    rw [hop] at hrange
    rw [hop, hfrac] at hzero
    exact ⟨hrange, hrsv, hzero⟩

/-- The words that are not legal are rejected. -/
theorem exists_decode_eq_error {c : Word16} (h : legal c ≠ true) : ∃ e, decode c = .error e := by
  cases hc : decode c with
  | ok i => exact absurd ((legal_iff_decode c).mpr ⟨i, hc⟩) h
  | error e => exact ⟨e, rfl⟩

/-- The commands whose F is below `n`: five without F, and two with each F (R62). For every `n`, so that no
proof evaluates the list. -/
def commandsBelow (n : Nat) : Finset Instr :=
  {.bsf64, .bsr64, .msb8, .msb16, .msb32} ∪ (Finset.range n).image .log2_32 ∪ (Finset.range n).image .log2_64

theorem mem_commandsBelow {n : Nat} (i : Instr) :
    i ∈ commandsBelow n ↔ ∀ f, i = .log2_32 f ∨ i = .log2_64 f → f < n := by
  cases i <;> simp [commandsBelow]

theorem wellFormed_iff (i : Instr) : i.wellFormed = true ↔ ∀ f, i = .log2_32 f ∨ i = .log2_64 f → f < 256 := by
  cases i <;> simp [Instr.wellFormed, Nat.lt_succ_iff]

theorem mem_commandsBelow_iff_wellFormed (i : Instr) : i ∈ commandsBelow 256 ↔ i.wellFormed = true :=
  (mem_commandsBelow i).trans (wellFormed_iff i).symm

theorem card_commandsBelow (n : Nat) : (commandsBelow n).card = 5 + n + n := by
  rw [commandsBelow, Finset.card_union_of_disjoint, Finset.card_union_of_disjoint,
    Finset.card_image_of_injective _ fun _ _ => Instr.log2_32.inj,
    Finset.card_image_of_injective _ fun _ _ => Instr.log2_64.inj, Finset.card_range]
  · rfl
  · simp [Finset.disjoint_left]
  · simp [Finset.disjoint_left]

/-- The legal words are as many as the well-formed commands, since encoding and decoding match them up. -/
theorem card_legal_words : (Finset.univ.filter fun c : Word16 => legal c = true).card = (commandsBelow 256).card := by
  symm
  apply Finset.card_bij fun i _ => encode i
  · intro i hi
    have hdec := decodeOfEncode i ((mem_commandsBelow_iff_wellFormed i).mp hi)
    exact Finset.mem_filter.mpr ⟨Finset.mem_univ _, (legal_iff_decode _).mpr ⟨i, hdec⟩⟩
  · intro i hi j hj h
    have hi := decodeOfEncode i ((mem_commandsBelow_iff_wellFormed i).mp hi)
    rw [h, decodeOfEncode j ((mem_commandsBelow_iff_wellFormed j).mp hj)] at hi
    exact (Except.ok.inj hi).symm
  · intro c hc
    obtain ⟨i, hi⟩ := (legal_iff_decode c).mp (Finset.mem_filter.mp hc).2
    obtain ⟨hwf, henc⟩ := encodeOfDecode c i hi
    exact ⟨i, (mem_commandsBelow_iff_wellFormed i).mpr hwf, henc⟩

/-- Settles O3: decodable, legal and the three conditions are one, and there is one legal word for each command. -/
theorem decodesExactlyTheLegalWords : Obligations.DecodesExactlyTheLegalWords :=
  ⟨fun c => (legal_iff_decode c).symm.trans (legal_iff_toNat c), legal_iff_decode,
    card_legal_words.trans (card_commandsBelow 256)⟩

/-! ### The opcode map -/

theorem op_of_decode {c : Word16} {i : Instr} (h : decode c = .ok i) : i.op = opField c :=
  (encode_eq_iff.mp (decode_eq_ok_iff.mp h).2).1

/-- A row has a command's mnemonic exactly when it has its OP (R61, R68). -/
theorem mnemonic_eq_iff_op {r : OpcodeRow} (hr : r ∈ opcodeMap) (i : Instr) :
    i.mnemonic = r.mnemonic ↔ i.op = opField r.pattern := by
  revert r
  cases i <;> simp only [Instr.mnemonic, Instr.op] <;> decide

/-- A row whose mask is the low `k` bits fixes the word modulo `2 ^ k`. -/
theorem covers_iff_mod {r : OpcodeRow} {k : Nat} (hmask : r.mask.toNat = 2 ^ k - 1) (c : Word16) :
    r.covers c = true ↔ c.toNat % 2 ^ k = r.pattern.toNat := by
  rw [OpcodeRow.covers, beq_iff_eq, ← BitVec.toNat_inj, BitVec.toNat_and, hmask, Nat.and_two_pow_sub_one_eq_mod]

/-- The rows of the commands without F fix the whole word, the two LOG2 rows all but FRAC (R68). -/
theorem opcodeMap_masks : ∀ r ∈ opcodeMap,
    (r.mask.toNat = 2 ^ 16 - 1 ∧ 1 ≤ r.pattern.toNat ∧ r.pattern.toNat ≤ 5) ∨
      (r.mask.toNat = 2 ^ 8 - 1 ∧ 6 ≤ r.pattern.toNat ∧ r.pattern.toNat ≤ 7) := by
  decide

/-- A word matches a row exactly when it is legal and has the row's OP (R68). -/
theorem covers_iff_legal {r : OpcodeRow} (hr : r ∈ opcodeMap) (c : Word16) :
    r.covers c = true ↔ legal c = true ∧ opField c = opField r.pattern := by
  rw [legal_iff_toNat, ← BitVec.toNat_inj, opField_toNat, opField_toNat]
  obtain ⟨hmask, h1, h5⟩ | ⟨hmask, h6, h7⟩ := opcodeMap_masks r hr
  · rw [covers_iff_mod hmask]
    omega
  · rw [covers_iff_mod hmask]
    omega

/-- Every command has a row with its OP. -/
theorem exists_row_of_op (i : Instr) : ∃ r ∈ opcodeMap, i.op = opField r.pattern := by
  cases i <;> simp only [Instr.op] <;> decide

/-- The rows' OPs are different. -/
theorem row_eq_of_op_eq : ∀ r ∈ opcodeMap, ∀ r' ∈ opcodeMap, opField r.pattern = opField r'.pattern → r = r' := by
  decide

/-- Settles O4: to match a row is to be legal with the row's OP, and the rows have one OP each. -/
theorem opcodeMapSelectsTheCommand : Obligations.OpcodeMapSelectsTheCommand := by
  refine ⟨rfl, fun c r hr => ?_, fun c r r' hr hr' h h' => ?_, fun c h => ?_⟩
  · simp only [covers_iff_legal hr, legal_iff_decode, mnemonic_eq_iff_op hr, ← exists_and_right]
    exact exists_congr fun i => and_congr_right fun hi => by rw [op_of_decode hi]
  · obtain ⟨-, hop⟩ := (covers_iff_legal hr c).mp h
    obtain ⟨-, hop'⟩ := (covers_iff_legal hr' c).mp h'
    exact row_eq_of_op_eq r hr r' hr' (hop.symm.trans hop')
  · refine exists_decode_eq_error fun hlegal => ?_
    obtain ⟨i, hi⟩ := (legal_iff_decode c).mp hlegal
    obtain ⟨r, hr, hop⟩ := exists_row_of_op i
    have hcovers := (covers_iff_legal hr c).mpr ⟨hlegal, (op_of_decode hi).symm.trans hop⟩
    exact Bool.false_ne_true ((h r hr).symm.trans hcovers)

/-- Settles O5: each listed word by running the decoder. -/
theorem listedWordsDecode : Obligations.ListedWordsDecode :=
  ⟨rfl, rfl, rfl, rfl, rfl, rfl, rfl, rfl, rfl, rfl, rfl⟩

end Sys2Proof
end

section
/-! PROOFS. CMD writes of illegal words, and the host program lines (30_encoding.md R65, R70). -/

namespace Sys2Proof.Machine

/-! ### Illegal words -/

/-- Settles O13: each of the kinds breaks a condition of R64, so the word is rejected and faults. -/
theorem illegalWordFaults : Obligations.IllegalWordFaults := by
  intro s v c rest hr hp hkind
  have hillegal : legal c ≠ true := by
    rw [Ne, legal_iff_toNat]
    omega
  obtain ⟨e, he⟩ := exists_decode_eq_error hillegal
  have hr' : Ready { s with pending := rest } v := hr
  rw [step_cmdWrite hp, runCommandWord_error he hr']
  rfl

/-! ### Host program lines -/

/-- A word with F in FRAC and 0 in RSV is F shifted left by 8, with OP below (R60, R70). -/
theorem fields_append_eq_shift_or {f : Nat} (hf : f ≤ 255) (op : BitVec 4) :
    BitVec.ofNat 8 f ++ 0#4 ++ op = BitVec.ofNat 16 f <<< 8 ||| op.setWidth 16 := by
  have hshift : f <<< 8 < 2 ^ 16 := by
    rw [Nat.shiftLeft_eq]
    omega
  have h8 : f < 2 ^ 8 := by omega
  have h16 : f < 2 ^ 16 := by omega
  have hop : op.toNat < 2 ^ 16 := by omega
  apply BitVec.eq_of_toNat_eq
  simp only [BitVec.toNat_append, BitVec.toNat_or, BitVec.toNat_shiftLeft, BitVec.toNat_setWidth, BitVec.toNat_ofNat,
    Nat.mod_eq_of_lt, h8, h16, hop, hshift, Nat.zero_mod, Nat.or_zero, ← Nat.shiftLeft_add]

theorem expandLine_command {i : Instr} (h : i.wellFormed = true) :
    expandLine (.command i) = some [cmdWrite (encode i)] := if_pos h

theorem expandLine_command_of_not_wellFormed {i : Instr} (h : i.wellFormed = false) :
    expandLine (.command i) = none := by
  simp [expandLine, h]

/-- Settles O57: a line's accesses are written out in `expandLine`, and the LOG2 words have F above their OP. -/
theorem assemblerExpansions : Obligations.AssemblerExpansions := by
  refine ⟨fun _ => rfl, fun _ => rfl, rfl, rfl, rfl, rfl, rfl, rfl, rfl, rfl, rfl, fun f hf => ?_, fun f hf => ?_,
    fun f hf => ?_, fun i imm h => if_pos h, fun i imm h => ?_, rfl⟩
  · rw [expandLine_command (i := .log2_32 f) (decide_eq_true hf)]
    exact congrArg (fun c => some [cmdWrite c]) (fields_append_eq_shift_or hf 6#4)
  · rw [expandLine_command (i := .log2_64 f) (decide_eq_true hf)]
    exact congrArg (fun c => some [cmdWrite c]) (fields_append_eq_shift_or hf 7#4)
  · have hwf : decide (f ≤ 255) = false := by simpa using hf
    exact ⟨expandLine_command_of_not_wellFormed hwf, expandLine_command_of_not_wellFormed hwf⟩
  · simp [expandLine, h]

end Sys2Proof.Machine
end

section
/-! PROOFS. BSF64 and the forward table datapath (40_bitscan_forward.md R81 to R83). -/

namespace Sys2Proof.Machine

/-! ### The command -/

theorem exec_bsf64_of_ne_zero {s : State} {v : Word64} (hr : Ready s v) (hv : v ≠ 0#64) :
    exec .bsf64 s = .next (writeIndex (bsf v) s) :=
  (takeCommand_of_ready hr.1 hr.2).trans (if_neg hv)

theorem exec_bsf64_of_zero {s : State} (hr : Ready s 0#64) :
    exec .bsf64 s = .next { s with status := faultStatus .bsfZero } :=
  takeCommand_of_ready hr.1 hr.2

/-- Settles O20: the index written is `bsf`, which is the least index of a set bit. -/
theorem bsf64Meaning : Obligations.Bsf64Meaning := by
  refine ⟨rfl, fun s v hr => ⟨fun hv => ?_, ?_⟩⟩
  · obtain ⟨hlt, hset, hclear⟩ := bsf_spec hv
    exact ⟨bsf v, hlt, hset, hclear, exec_bsf64_of_ne_zero hr hv⟩
  · rintro rfl
    have hstatus : faultStatus .bsfZero = 0x21#32 := by decide
    rw [exec_bsf64_of_zero hr, hstatus]

/-! ### The datapath -/

/-- Up to its lowest set bit, a value is that bit alone. -/
theorem toNat_mod_two_pow_bsf {w : Nat} {v : BitVec w} (hv : v ≠ 0#w) : v.toNat % 2 ^ (bsf v + 1) = 2 ^ bsf v := by
  obtain ⟨-, hset, hclear⟩ := bsf_spec hv
  apply Nat.eq_of_testBit_eq
  intro j
  rw [Nat.testBit_mod_two_pow, Nat.testBit_two_pow, BitVec.testBit_toNat]
  rcases Nat.lt_trichotomy j (bsf v) with h | rfl | h
  · simp [hclear j h, h.ne']
  · simp [hset]
  · simp [h.ne, Nat.not_lt.mpr h]

/-- Subtracting 1 from a number whose lowest set bit is bit k flips bits 0 to k and no other. -/
theorem two_pow_mul_add_xor_sub_one (m k : Nat) :
    (2 ^ (k + 1) * m + 2 ^ k) ^^^ (2 ^ (k + 1) * m + 2 ^ k - 1) = 2 ^ (k + 1) - 1 := by
  have hpos : 0 < 2 ^ k := Nat.two_pow_pos k
  have hlt : 2 ^ k < 2 ^ (k + 1) := Nat.pow_lt_pow_succ (by decide)
  rw [Nat.add_sub_assoc hpos]
  apply Nat.eq_of_testBit_eq
  intro j
  rw [Nat.testBit_xor, Nat.testBit_two_pow_mul_add m hlt, Nat.testBit_two_pow_mul_add m (by omega),
    Nat.testBit_two_pow, Nat.testBit_two_pow_sub_one, Nat.testBit_two_pow_sub_one]
  rcases Nat.lt_trichotomy j k with h | rfl | h
  · simp [h, h.ne', Nat.lt_succ_of_lt h]
  · simp
  · simp [Nat.not_lt.mpr h]

/-- The isolation step of R83: bits 0 to `bsf v` are set, all higher bits are 0. -/
theorem xor_sub_one_toNat {w : Nat} {v : BitVec w} (hv : v ≠ 0#w) :
    (v ^^^ (v - 1#w)).toNat = 2 ^ (bsf v + 1) - 1 := by
  have hdecomp : 2 ^ (bsf v + 1) * (v.toNat / 2 ^ (bsf v + 1)) + 2 ^ bsf v = v.toNat := by
    rw [← toNat_mod_two_pow_bsf hv, Nat.div_add_mod]
  have hpos : 1 ≤ v.toNat := Nat.pos_of_ne_zero fun h => hv (BitVec.eq_of_toNat_eq (by simpa using h))
  have hone : (1#w).toNat = 1 := Nat.mod_eq_of_lt (Nat.lt_of_le_of_lt hpos v.isLt)
  rw [BitVec.toNat_xor, BitVec.toNat_sub_of_le (by rwa [BitVec.le_def, hone]), hone, ← hdecomp]
  exact two_pow_mul_add_xor_sub_one _ _

/-- The datapath sees nothing of a value but where its lowest set bit is. -/
theorem fwdDatapath_congr (t : ConstTables) {v v' : Word64} (hv : v ≠ 0#64) (hv' : v' ≠ 0#64) (h : bsf v = bsf v') :
    fwdDatapath t v = fwdDatapath t v' := by
  have hisolated : v ^^^ (v - 1#64) = v' ^^^ (v' - 1#64) :=
    BitVec.eq_of_toNat_eq (by rw [xor_sub_one_toNat hv, xor_sub_one_toNat hv', h])
  unfold fwdDatapath
  rw [hisolated]

theorem bsf_twoPow {w k : Nat} (hk : k < w) : bsf (BitVec.twoPow w k) = k :=
  bsf_unique (by simp [hk]) fun j hj => by simp [hj.ne']

/-- T_FWD is right for each of the 64 values with one set bit. -/
theorem fwdDatapath_twoPow :
    ∀ k < 64, (fwdDatapath State.reset.tables (BitVec.twoPow 64 k)).toNat = k := by
  decide

/-- Settles O53: a value goes through the datapath as its lowest set bit does, and the table is right for each single bit. -/
theorem forwardTableIsExact : Obligations.ForwardTableIsExact := by
  intro v hv
  obtain ⟨hlt, -, -⟩ := bsf_spec hv
  have hbit : BitVec.twoPow 64 (bsf v) ≠ 0#64 := fun h => by
    simpa [hlt] using congrArg (·.getLsbD (bsf v)) h
  rw [fwdDatapath_congr _ hv hbit (bsf_twoPow hlt).symm]
  exact fwdDatapath_twoPow (bsf v) hlt

end Sys2Proof.Machine
end

section
/-! PROOFS. The fill step and the two table datapaths that start with it (41_msb_family.md R100, R104, R111). -/

namespace Sys2Proof.Machine

/-! ### The fill step -/

/-- `n` rounds of R100, each shifting twice as far as the one before: 1, 2, 4 and so on. -/
def doublingRounds (n : Nat) : List Nat := (List.range n).map (2 ^ ·)

theorem doublingRounds_succ (n : Nat) : doublingRounds (n + 1) = doublingRounds n ++ [2 ^ n] := by
  simp [doublingRounds, List.range_succ]

section Fill
variable {w : Nat}

theorem fill_append (u : BitVec w) (rounds later : List Nat) :
    fill u (rounds ++ later) = fill (fill u rounds) later := by
  induction rounds generalizing u with
  | nil => rfl
  | cons s rounds ih => exact ih _

@[simp] theorem fill_zero (rounds : List Nat) : fill (0#w) rounds = 0#w := by
  induction rounds with
  | nil => rfl
  | cons s rounds ih => simpa [fill] using ih

/-- After `n` rounds a bit is set exactly where the value has a set bit there or fewer than `2 ^ n` places above. -/
theorem getLsbD_fill_doublingRounds (u : BitVec w) (n j : Nat) :
    (fill u (doublingRounds n)).getLsbD j = true ↔ ∃ d < 2 ^ n, u.getLsbD (j + d) = true := by
  induction n generalizing j with
  | zero => simp [doublingRounds, fill]
  | succ n ih =>
    have hround : (fill u (doublingRounds (n + 1))).getLsbD j = true ↔
        (∃ d < 2 ^ n, u.getLsbD (j + d) = true) ∨ ∃ d < 2 ^ n, u.getLsbD (2 ^ n + j + d) = true := by
      rw [doublingRounds_succ, fill_append, ← ih, ← ih]
      simp [fill]
    rw [hround, Nat.pow_succ]
    constructor
    · rintro (⟨d, hd, h⟩ | ⟨d, hd, h⟩)
      · exact ⟨d, by omega, h⟩
      · exact ⟨2 ^ n + d, by omega, by rwa [show j + (2 ^ n + d) = 2 ^ n + j + d by omega]⟩
    · rintro ⟨d, hd, h⟩
      rcases Nat.lt_or_ge d (2 ^ n) with hlt | hge
      · exact .inl ⟨d, hlt, h⟩
      · exact .inr ⟨d - 2 ^ n, by omega, by rwa [show 2 ^ n + j + (d - 2 ^ n) = j + d by omega]⟩

/-- Rounds that reach down from the highest set bit to bit 0 set every bit between (R100). -/
theorem fill_doublingRounds_toNat {u : BitVec w} {n : Nat} (hu : u ≠ 0#w) (hn : bsr u < 2 ^ n) :
    (fill u (doublingRounds n)).toNat = 2 ^ (bsr u + 1) - 1 := by
  obtain ⟨-, hset, hclear⟩ := bsr_spec hu
  apply Nat.eq_of_testBit_eq
  intro j
  rw [BitVec.testBit_toNat, Nat.testBit_two_pow_sub_one, Bool.eq_iff_iff, getLsbD_fill_doublingRounds, decide_eq_true_iff]
  constructor
  · rintro ⟨d, -, h⟩
    by_contra hj
    rw [hclear (j + d) (by omega)] at h
    cases h
  · intro hj
    exact ⟨bsr u - j, by omega, by rwa [show j + (bsr u - j) = bsr u by omega]⟩

theorem bsr_twoPow {k : Nat} (hk : k < w) : bsr (BitVec.twoPow w k) = k :=
  bsr_unique (by simp [hk]) fun j hj => by simp [hj.ne]

theorem twoPow_ne_zero {k : Nat} (hk : k < w) : BitVec.twoPow w k ≠ 0#w := fun h => by
  simpa [hk] using congrArg (·.getLsbD k) h

/-- A value fills as its highest set bit alone does, at any width that has that bit. -/
theorem fill_toNat_eq_fill_twoPow {u : BitVec w} {w' n n' : Nat} (hu : u ≠ 0#w) (hw' : bsr u < w')
    (hn : bsr u < 2 ^ n) (hn' : bsr u < 2 ^ n') :
    (fill u (doublingRounds n)).toNat = (fill (BitVec.twoPow w' (bsr u)) (doublingRounds n')).toNat := by
  have hbsr := bsr_twoPow hw'
  rw [fill_doublingRounds_toNat hu hn, fill_doublingRounds_toNat (twoPow_ne_zero hw') (by rwa [hbsr]), hbsr]

end Fill

/-- Settles O56: the rounds reach any bit of a value of that width from any other. -/
theorem fillMakesOnes : Obligations.FillMakesOnes := by
  refine fun w m u hw => ⟨fun hu => fill_doublingRounds_toNat hu ?_, ?_⟩
  · have hlt := (bsr_spec hu).1
    rw [Nat.pow_succ]
    omega
  · rintro rfl
    exact fill_zero _

/-! ### The datapaths -/

/-- T_REV is right for each of the 64 values with one set bit. -/
theorem revDatapath_twoPow :
    ∀ k < 64, (revDatapath State.reset.tables (BitVec.twoPow 64 k)).toNat = k := by
  decide

/-- Settles O54: six rounds fill a value as they fill its highest set bit, and the table is right for each single bit. -/
theorem reverseTableIsExact : Obligations.ReverseTableIsExact := by
  intro v hv
  obtain ⟨hlt, -, -⟩ := bsr_spec hv
  have hfill : fill v (doublingRounds 6) = fill (BitVec.twoPow 64 (bsr v)) (doublingRounds 6) :=
    BitVec.eq_of_toNat_eq (fill_toNat_eq_fill_twoPow hv hlt hlt hlt)
  have hdatapath : revDatapath State.reset.tables v = revDatapath State.reset.tables (BitVec.twoPow 64 (bsr v)) := by
    unfold revDatapath
    rw [show [1, 2, 4, 8, 16, 32] = doublingRounds 6 from rfl, hfill]
  rw [hdatapath]
  exact revDatapath_twoPow (bsr v) hlt

/-- The 32-entry datapath sees nothing of a filled value but its zero extension (R104). -/
theorem msbDatapath_congr (t : ConstTables) {w w' : Nat} {rounds rounds' : List Nat} {u : BitVec w} {u' : BitVec w'}
    (h : (fill u rounds).setWidth 32 = (fill u' rounds').setWidth 32) :
    msbDatapath t rounds u = msbDatapath t rounds' u' := by
  unfold msbDatapath
  rw [h]

/-- T_MSB is right for each of the 32 values with one set bit. -/
theorem msbDatapath_twoPow :
    ∀ k < 32, (msbDatapath State.reset.tables msb32Rounds (BitVec.twoPow 32 k)).toNat = k := by
  decide

/-- T_MSB is right for 0. -/
theorem msbDatapath_zero : (msbDatapath State.reset.tables msb32Rounds 0#32).toNat = 0 := by
  decide

/-- The 32-entry datapath is right at every width up to 32, with rounds that reach down from the highest set bit. -/
theorem msbDatapath_eq_msbIndex {w n : Nat} (hw : w ≤ 32) {u : BitVec w} (hn : u ≠ 0#w → bsr u < 2 ^ n) :
    (msbDatapath State.reset.tables (doublingRounds n) u).toNat = msbIndex u := by
  by_cases hu : u = 0#w
  · subst hu
    rw [msbDatapath_congr _ (u' := 0#32) (rounds' := msb32Rounds) (by simp), msbDatapath_zero, msbIndex_zero]
  · have hlt : bsr u < 32 := Nat.lt_of_lt_of_le (bsr_spec hu).1 hw
    have hfill : (fill u (doublingRounds n)).setWidth 32 =
        (fill (BitVec.twoPow 32 (bsr u)) (doublingRounds 5)).setWidth 32 :=
      BitVec.eq_of_toNat_eq (by
        rw [BitVec.toNat_setWidth, BitVec.toNat_setWidth, fill_toNat_eq_fill_twoPow (n' := 5) hu hlt (hn hu) hlt])
    rw [msbDatapath_congr _ hfill, msbIndex_of_ne_zero hu]
    exact msbDatapath_twoPow (bsr u) hlt

/-- Settles O55: five rounds reach across 32 bits, four across 16 and three across 8. -/
theorem msbTableIsExact : Obligations.MsbTableIsExact := by
  refine ⟨fun u => ?_, fun u => ?_, fun u hbyte => ?_⟩
  · exact msbDatapath_eq_msbIndex (n := 5) (by decide) fun hu => (bsr_spec hu).1
  · exact msbDatapath_eq_msbIndex (n := 4) (by decide) fun hu => (bsr_spec hu).1
  · refine msbDatapath_eq_msbIndex (n := 3) (by decide) fun hu => ?_
    obtain ⟨hle, -⟩ := bsr_bounds hu
    exact (Nat.pow_lt_pow_iff_right (by decide : 1 < 2)).mp (Nat.lt_of_le_of_lt hle hbyte)

end Sys2Proof.Machine
end

section
/-! PROOFS. BSR64, MSB8, MSB16 and MSB32 (41_msb_family.md R101 to R113). -/

namespace Sys2Proof.Machine

/-! ### BSR64 -/

theorem exec_bsr64_of_ne_zero {s : State} {v : Word64} (hr : Ready s v) (hv : v ≠ 0#64) :
    exec .bsr64 s = .next (writeIndex (bsr v) s) :=
  (takeCommand_of_ready hr.1 hr.2).trans (if_neg hv)

theorem exec_bsr64_of_zero {s : State} (hr : Ready s 0#64) :
    exec .bsr64 s = .next { s with status := faultStatus .bsrZero } :=
  takeCommand_of_ready hr.1 hr.2

/-- Settles O21: the index written is `bsr`, which is the greatest index of a set bit. -/
theorem bsr64Meaning : Obligations.Bsr64Meaning := by
  refine ⟨rfl, fun s v hr => ⟨fun hv => ?_, ?_⟩⟩
  · obtain ⟨hlt, hset, hclear⟩ := bsr_spec hv
    exact ⟨bsr v, hlt, hset, hclear, exec_bsr64_of_ne_zero hr hv⟩
  · rintro rfl
    have hstatus : faultStatus .bsrZero = 0x31#32 := by decide
    rw [exec_bsr64_of_zero hr, hstatus]

/-- Settles O26: the one set bit is the lowest and the highest. -/
theorem scansAgreeOnPowersOfTwo : Obligations.ScansAgreeOnPowersOfTwo := by
  intro s k hk hr
  have hne := twoPow_ne_zero hk
  rw [exec_bsf64_of_ne_zero hr hne, exec_bsr64_of_ne_zero hr hne, bsf_twoPow hk, bsr_twoPow hk]
  exact ⟨rfl, rfl⟩

/-! ### The MSB function on the low bits of OPERAND -/

section MsbIndex
variable {w : Nat} {u : BitVec w} {v : Word64} (hu : ∀ j, u.getLsbD j = (decide (j < w) && v.getLsbD j))
include hu

theorem msbIndex_of_low_clear (h : ∀ j, j < w → v.getLsbD j = false) : msbIndex u = 0 := by
  have hzero : u = 0#w := BitVec.eq_of_getLsbD_eq fun j hj => by simp [hu, h j hj]
  rw [hzero, msbIndex_zero]

theorem msbIndex_of_low_highest {k : Nat} (hk : k < w) (hset : v.getLsbD k = true)
    (hclear : ∀ j, k < j → j < w → v.getLsbD j = false) : msbIndex u = k := by
  have hbit : u.getLsbD k = true := by simp [hu, hk, hset]
  have hne : u ≠ 0#w := by
    rintro rfl
    simp at hbit
  rw [msbIndex_of_ne_zero hne]
  refine bsr_unique hbit fun j hj => ?_
  by_cases hjw : j < w
  · simp [hu, hclear j hj hjw]
  · simp [hu, hjw]

/-- A command that writes the MSB function of the low bits writes the index of their highest set bit, 0 if there is none. -/
theorem exec_of_writes_msbIndex {i : Instr} {s : State} (hexec : exec i s = .next (writeIndex (msbIndex u) s)) :
    ((∀ j, j < w → v.getLsbD j = false) → exec i s = .next { s with result := .value 0#32 }) ∧
    (∀ k, k < w → v.getLsbD k = true → (∀ j, k < j → j < w → v.getLsbD j = false) →
      exec i s = .next { s with result := .value (BitVec.ofNat 32 k) }) := by
  refine ⟨fun h => ?_, fun k hk hset hclear => ?_⟩
  · rw [hexec, msbIndex_of_low_clear hu h]
    rfl
  · rw [hexec, msbIndex_of_low_highest hu hk hset hclear]
    rfl

end MsbIndex

/-! ### MSB16 and MSB32 -/

/-- Settles O23: the input is the low 16 bits of OPERAND. -/
theorem msb16Meaning : Obligations.Msb16Meaning :=
  ⟨rfl, fun _ v hr => exec_of_writes_msbIndex (getLsbD_input16 v) (exec_of_ready .msb16 hr)⟩

/-- Settles O24: the input is the low 32 bits of OPERAND. -/
theorem msb32Meaning : Obligations.Msb32Meaning :=
  ⟨rfl, fun _ v hr => exec_of_writes_msbIndex (getLsbD_input32 v) (exec_of_ready .msb32 hr)⟩

/-! ### MSB8 -/

/-- The high byte of the input, bit by bit (R101). -/
theorem msb8HighByte_eq_zero_iff_bits (v : Word64) :
    msb8HighByte (input16 v) = 0#8 ↔ ∀ j, 8 ≤ j → j < 16 → v.getLsbD j = false := by
  have hbit : ∀ i < 8, (msb8HighByte (input16 v)).getLsbD i = v.getLsbD (8 + i) := fun i hi => by
    rw [msb8HighByte, BitVec.getLsbD_extractLsb', getLsbD_input16]
    simp [hi, show 8 + i < 16 by omega]
  constructor
  · intro h j h8 h16
    obtain ⟨i, rfl⟩ := Nat.exists_eq_add_of_le h8
    rw [← hbit i (by omega), h, BitVec.getLsbD_zero]
  · intro h
    apply BitVec.eq_of_getLsbD_eq
    intro i hi
    rw [hbit i hi, h (8 + i) (by omega) (by omega), BitVec.getLsbD_zero]

theorem exec_msb8_of_high_clear {s : State} {v : Word64} (hr : Ready s v)
    (h : ∀ j, 8 ≤ j → j < 16 → v.getLsbD j = false) :
    exec .msb8 s = .next (writeIndex (msbIndex (input16 v)) s) :=
  (takeCommand_of_ready hr.1 hr.2).trans (if_pos ((msb8HighByte_eq_zero_iff_bits v).mpr h))

theorem exec_msb8_of_high_set {s : State} {v : Word64} (hr : Ready s v) {k : Nat} (h8 : 8 ≤ k) (h16 : k < 16)
    (hset : v.getLsbD k = true) : exec .msb8 s = .next (drawResult s) :=
  (takeCommand_of_ready hr.1 hr.2).trans (if_neg fun h => by
    rw [(msb8HighByte_eq_zero_iff_bits v).mp h k h8 h16] at hset
    cases hset)

/-- Settles O22: with the high byte clear MSB8 is the MSB function of the 16-bit input, otherwise it draws. -/
theorem msb8Meaning : Obligations.Msb8Meaning := by
  refine ⟨rfl, fun s v hr => ⟨fun h => ?_, fun k hk hset hclear => ?_, fun k h8 h16 hset => ?_⟩⟩
  · have hexec := exec_msb8_of_high_clear hr fun j _ hj => h j hj
    exact (exec_of_writes_msbIndex (getLsbD_input16 v) hexec).1 h
  · have hexec := exec_msb8_of_high_clear hr fun j h8 hj => hclear j (by omega) hj
    exact (exec_of_writes_msbIndex (getLsbD_input16 v) hexec).2 k (by omega) hset hclear
  · have hvalue : BitVec.ofNat 32 (Config.msb8Draw s.draws).toNat = (Config.msb8Draw s.draws).setWidth 32 :=
      BitVec.ofNat_toNat ..
    refine ⟨_, (Config.msb8Draw s.draws).isLt, rfl, ?_⟩
    rw [exec_msb8_of_high_set hr h8 h16 hset, hvalue]
    rfl

/-! ### The inputs 0 and 1 -/

/-- The MSB commands select the same write for 0 and for 1: RESULT = 0, not drawn (R105). -/
theorem commandWrite_msb_of_zero_or_one (mode : RenormRound) {v : Word64} {i : Instr}
    (hi : i = .msb8 ∨ i = .msb16 ∨ i = .msb32) (hv : v = 0#64 ∨ v = 1#64) : commandWrite mode v i = .result 0#32 := by
  rcases hi with rfl | rfl | rfl <;> rcases hv with rfl | rfl <;> rfl

/-- Settles O25: the write is RESULT = 0, and a ready command does what its write says. -/
theorem msbOfZeroIsZero : Obligations.MsbOfZeroIsZero := by
  intro s v i hi hv hr
  rw [exec_of_ready i hr, commandWrite_msb_of_zero_or_one _ hi hv]
  rfl

end Sys2Proof.Machine
end

section
/-! PROOFS. The renormalise step, the loop invariant and the bounds of LOG2CORE (42_fixed_point_log2.md R134 to R139). -/

namespace Sys2Proof.Machine

/-! ### Rounding -/

/-- The working value a pass by `s` leaves: `(w + RND(s)) >> s` (R132 step 1). -/
def roundedShift (mode : RenormRound) (s w : Nat) : Nat := (w + roundAddend mode s) >>> s

/-- The shift is a floor division of the exact sum. -/
theorem roundedShift_bounds (mode : RenormRound) (s w : Nat) :
    2 ^ s * roundedShift mode s w ≤ w + roundAddend mode s ∧
      w + roundAddend mode s < 2 ^ s * (roundedShift mode s w + 1) := by
  rw [roundedShift, Nat.shiftRight_eq_div_pow]
  exact ⟨Nat.mul_div_le _ _, Nat.lt_mul_div_succ _ (Nat.two_pow_pos s)⟩

theorem roundAddend_lt (mode : RenormRound) {s : Nat} (hs : 0 < s) : roundAddend mode s < 2 ^ s := by
  cases mode with
  | ceil => exact Nat.sub_lt (Nat.two_pow_pos s) one_pos
  | halfUp => exact Nat.pow_lt_pow_right one_lt_two (Nat.sub_lt hs one_pos)

/-- Rounding maps an integer to itself (R138). -/
theorem roundedShift_mul_two_pow (mode : RenormRound) {s : Nat} (hs : 0 < s) (q : Nat) :
    roundedShift mode s (q * 2 ^ s) = q := by
  rw [roundedShift, Nat.shiftRight_eq_div_pow, Nat.add_comm, Nat.add_mul_div_right _ _ (Nat.two_pow_pos s),
    Nat.div_eq_of_lt (roundAddend_lt mode hs), Nat.zero_add]

theorem roundedShift_mono (mode : RenormRound) (s : Nat) {w w' : Nat} (h : w ≤ w') :
    roundedShift mode s w ≤ roundedShift mode s w' := by
  rw [roundedShift, roundedShift, Nat.shiftRight_eq_div_pow, Nat.shiftRight_eq_div_pow]
  exact Nat.div_le_div_right (Nat.add_le_add_right h _)

/-! ### One pass -/

variable {half : Nat} {st : LoopState}

theorem le_log2_of_two_pow_le {w : Nat} (hw : 2 ^ half ≤ w) : half ≤ Nat.log2 w :=
  (Nat.le_log2 (Nat.lt_of_lt_of_le (Nat.two_pow_pos half) hw).ne').mpr hw

/-- Under the invariant `bsr(w)` is n, or w has reached its upper bound, a mantissa of 2. -/
theorem LoopInv.log2_cases (h : LoopInv half st) :
    (Nat.log2 st.w = st.n ∧ st.w < 2 ^ (st.n + 1)) ∨ (Nat.log2 st.w = st.n + 1 ∧ st.w = 2 ^ (st.n + 1)) := by
  obtain ⟨hlo, hhi, -⟩ := h
  have hw : st.w ≠ 0 := (Nat.lt_of_lt_of_le (Nat.two_pow_pos _) hlo).ne'
  rcases hhi.lt_or_eq with hlt | heq
  · exact .inl ⟨(Nat.log2_eq_iff hw).mpr ⟨hlo, hlt⟩, hlt⟩
  · exact .inr ⟨by rw [heq, Nat.log2_two_pow], heq⟩

theorem LoopInv.n_lt_of_w_lt (h : LoopInv half st) (hw : st.w < 2 ^ half) : st.n < half :=
  (Nat.pow_lt_pow_iff_right one_lt_two).mp (h.1.trans_lt hw)

/-- The count can bear the shift of a pass. -/
theorem LoopInv.shift_le (h : LoopInv half st) (hhalf : 2 ≤ half) (hw : 2 ^ half ≤ st.w) :
    Nat.log2 st.w - half + 1 ≤ st.n := by
  have hle := le_log2_of_two_pow_le hw
  rcases h.log2_cases with ⟨hlog, -⟩ | ⟨hlog, -⟩ <;> omega

/-- A pass as R134 has it: the shift is `bsr(w) − H + 1`. -/
theorem renormPass_eq (mode : RenormRound) (h : LoopInv half st) (hw : 2 ^ half ≤ st.w) :
    renormPass mode half st = ⟨roundedShift mode (Nat.log2 st.w - half + 1) st.w,
      st.n - (Nat.log2 st.w - half + 1), st.r⟩ := by
  rw [← renormShift_eq_log2 hw h.2.2]
  rfl

/-- A pass leaves n = H − 1, or leaves the mantissa 2 with n = H − 2 (R138). -/
theorem renormPass_cases (mode : RenormRound) (hhalf : 2 ≤ half) (h : LoopInv half st) (hw : 2 ^ half ≤ st.w) :
    (half ≤ st.n ∧ st.w < 2 ^ (st.n + 1) ∧
      renormPass mode half st = ⟨roundedShift mode (st.n - half + 1) st.w, half - 1, st.r⟩) ∨
    (half ≤ st.n + 1 ∧ st.w = 2 ^ (st.n + 1) ∧ renormPass mode half st = ⟨2 ^ (half - 1), half - 2, st.r⟩) := by
  have hle : half ≤ Nat.log2 st.w := le_log2_of_two_pow_le hw
  rw [renormPass_eq mode h hw]
  rcases h.log2_cases with ⟨hlog, hlt⟩ | ⟨hlog, heq⟩ <;> rw [hlog] at hle ⊢
  · exact .inl ⟨hle, hlt, by rw [show st.n - (st.n - half + 1) = half - 1 by omega]⟩
  · refine .inr ⟨hle, heq, ?_⟩
    have hpow : st.w = 2 ^ (half - 1) * 2 ^ (st.n + 1 - half + 1) := by
      rw [heq, ← Nat.pow_add]
      congr 1
      omega
    rw [show st.n - (st.n + 1 - half + 1) = half - 2 by omega, hpow, roundedShift_mul_two_pow mode (Nat.succ_pos _)]

/-- A pass leaves w in [2^(H−1), 2^H] (R134 (c)). -/
theorem roundedShift_mem {n w : Nat} (mode : RenormRound) (hhalf : 1 ≤ half) (hn : half ≤ n) (hlo : 2 ^ n ≤ w)
    (hhi : w ≤ 2 ^ (n + 1)) :
    2 ^ (half - 1) ≤ roundedShift mode (n - half + 1) w ∧ roundedShift mode (n - half + 1) w ≤ 2 ^ half := by
  have hexact : ∀ k, roundedShift mode (n - half + 1) (2 ^ (k + (n - half + 1))) = 2 ^ k := fun k => by
    rw [Nat.pow_add, roundedShift_mul_two_pow mode (Nat.succ_pos _)]
  constructor
  · rw [← hexact (half - 1), show half - 1 + (n - half + 1) = n by omega]
    exact roundedShift_mono mode _ hlo
  · refine (roundedShift_mono mode _ hhi).trans_eq ?_
    rw [← hexact half, show half + (n - half + 1) = n + 1 by omega]

theorem renormPass_w_le (mode : RenormRound) (hhalf : 2 ≤ half) (h : LoopInv half st) (hw : 2 ^ half ≤ st.w) :
    (renormPass mode half st).w ≤ 2 ^ half := by
  rcases renormPass_cases mode hhalf h hw with ⟨hn, hlt, heq⟩ | ⟨-, -, heq⟩ <;> rw [heq]
  · exact (roundedShift_mem mode (by omega) hn h.1 hlt.le).2
  · exact Nat.pow_le_pow_right two_pos (by omega)

theorem renormPass_n (mode : RenormRound) (hhalf : 2 ≤ half) (h : LoopInv half st) (hw : 2 ^ half ≤ st.w) :
    (renormPass mode half st).n = half - 1 ∨ (renormPass mode half st).n = half - 2 := by
  rcases renormPass_cases mode hhalf h hw with ⟨-, -, heq⟩ | ⟨-, -, heq⟩ <;> rw [heq]
  · exact .inl rfl
  · exact .inr rfl

theorem loopInv_renormPass (mode : RenormRound) (hhalf : 2 ≤ half) (h : LoopInv half st) (hw : 2 ^ half ≤ st.w) :
    LoopInv half (renormPass mode half st) := by
  have hfits : (renormPass mode half st).w < 2 ^ (2 * half) :=
    (renormPass_w_le mode hhalf h hw).trans_lt (Nat.pow_lt_pow_right one_lt_two (by omega))
  rcases renormPass_cases mode hhalf h hw with ⟨hn, hlt, heq⟩ | ⟨-, -, heq⟩ <;> rw [heq] at hfits ⊢
  · obtain ⟨hlo, hhi⟩ := roundedShift_mem mode (by omega) hn h.1 hlt.le
    exact ⟨hlo, hhi.trans_eq (by rw [Nat.sub_add_cancel (by omega)]), hfits⟩
  · have hn : half - 2 + 1 = half - 1 := by omega
    exact ⟨Nat.pow_le_pow_right two_pos (Nat.sub_le_sub_left one_le_two half), hn ▸ le_rfl, hfits⟩

/-- A pass that runs at w = 2^H halves w exactly (R134 (c)). -/
theorem renormPass_w_of_eq (mode : RenormRound) (hhalf : 1 ≤ half) (h : LoopInv half st) (hw : st.w = 2 ^ half) :
    (renormPass mode half st).w = 2 ^ (half - 1) := by
  have hpow : 2 ^ half = 2 ^ (half - 1) * 2 ^ 1 := by rw [← Nat.pow_add, Nat.sub_add_cancel hhalf]
  rw [renormPass_eq mode h hw.ge, hw, Nat.log2_two_pow, Nat.sub_self, hpow]
  exact roundedShift_mul_two_pow mode one_pos _

/-! ### The while loop -/

theorem renormWhile_of_lt (mode : RenormRound) (passes : Nat) (hw : st.w < 2 ^ half) :
    renormWhile mode half passes st = st := by
  cases passes with
  | zero => rfl
  | succ passes => exact if_neg (Nat.not_le.mpr hw)

theorem renormWhile_succ_of_le (mode : RenormRound) (passes : Nat) (hw : 2 ^ half ≤ st.w) :
    renormWhile mode half (passes + 1) st = renormWhile mode half passes (renormPass mode half st) :=
  if_pos hw

theorem renormWhile_add (mode : RenormRound) (passes more : Nat) (st : LoopState) :
    renormWhile mode half (passes + more) st = renormWhile mode half more (renormWhile mode half passes st) := by
  induction passes generalizing st with
  | zero => rw [Nat.zero_add]; rfl
  | succ passes ih =>
    rw [Nat.add_right_comm]
    rcases Nat.lt_or_ge st.w (2 ^ half) with hlt | hge
    · simp only [renormWhile_of_lt mode _ hlt]
    · rw [renormWhile_succ_of_le mode _ hge, renormWhile_succ_of_le mode _ hge, ih]

theorem loopInv_renormWhile (mode : RenormRound) (hhalf : 2 ≤ half) (passes : Nat) (h : LoopInv half st) :
    LoopInv half (renormWhile mode half passes st) := by
  induction passes generalizing st with
  | zero => exact h
  | succ passes ih =>
    rcases Nat.lt_or_ge st.w (2 ^ half) with hlt | hge
    · rwa [renormWhile_of_lt mode _ hlt]
    · rw [renormWhile_succ_of_le mode _ hge]
      exact ih (loopInv_renormPass mode hhalf h hge)

theorem loopInv_renormalise (mode : RenormRound) (hhalf : 2 ≤ half) (h : LoopInv half st) :
    LoopInv half (renormalise mode half st) := loopInv_renormWhile mode hhalf 2 h

/-- Two passes are enough: the first leaves at most 2^H, and at 2^H the second leaves half of it (R134 (c), R139). -/
theorem renormalise_w_lt (mode : RenormRound) (hhalf : 2 ≤ half) (h : LoopInv half st) :
    (renormalise mode half st).w < 2 ^ half := by
  rcases Nat.lt_or_ge st.w (2 ^ half) with hlt | hge
  · rwa [renormalise, renormWhile_of_lt mode _ hlt]
  have hinv := loopInv_renormPass mode hhalf h hge
  rw [renormalise, renormWhile_succ_of_le mode _ hge]
  rcases (renormPass_w_le mode hhalf h hge).lt_or_eq with hlt | heq
  · rwa [renormWhile_of_lt mode _ hlt]
  · rw [renormWhile_succ_of_le mode _ heq.ge]
    exact (renormPass_w_of_eq mode (by omega) hinv heq).trans_lt (Nat.pow_lt_pow_right one_lt_two (by omega))

/-- After the renormalise step n is at most H − 1. -/
theorem renormalise_n_lt (mode : RenormRound) (hhalf : 2 ≤ half) (h : LoopInv half st) :
    (renormalise mode half st).n < half :=
  (loopInv_renormalise mode hhalf h).n_lt_of_w_lt (renormalise_w_lt mode hhalf h)

/-! ### Square and extract -/

/-- The bit the extract step finds: whether the squared mantissa has reached 2 (R136). -/
def extractedBit (st : LoopState) : Nat := if 2 ^ (2 * st.n + 1) ≤ st.w * st.w then 1 else 0

theorem extractedBit_of_le {st : LoopState} (h : 2 ^ (2 * st.n + 1) ≤ st.w * st.w) : extractedBit st = 1 := if_pos h

theorem extractedBit_of_lt {st : LoopState} (h : st.w * st.w < 2 ^ (2 * st.n + 1)) : extractedBit st = 0 :=
  if_neg (Nat.not_le.mpr h)

theorem extractedBit_le_one (st : LoopState) : extractedBit st ≤ 1 := by
  unfold extractedBit; split <;> decide

@[simp] theorem squareAndExtract_w (st : LoopState) : (squareAndExtract st).w = st.w * st.w := by
  unfold squareAndExtract; dsimp only; split <;> rfl

@[simp] theorem squareAndExtract_n (st : LoopState) : (squareAndExtract st).n = 2 * st.n + extractedBit st := by
  unfold squareAndExtract extractedBit; dsimp only; split <;> rfl

/-- The square below 2^W: no wrap (R135). -/
theorem mul_self_lt_of_lt {w : Nat} (hw : w < 2 ^ half) : w * w < 2 ^ (2 * half) := by
  rw [Nat.two_mul, Nat.pow_add]
  exact Nat.mul_self_lt_mul_self hw

theorem loopInv_squareAndExtract (h : LoopInv half st) (hw : st.w < 2 ^ half) :
    LoopInv half (squareAndExtract st) := by
  obtain ⟨hlo, hhi, -⟩ := h
  have hlo2 : 2 ^ (2 * st.n) ≤ st.w * st.w := by
    rw [Nat.two_mul, Nat.pow_add]
    exact Nat.mul_self_le_mul_self hlo
  have hhi2 : st.w * st.w ≤ 2 ^ (2 * st.n + 2) := by
    rw [show 2 * st.n + 2 = (st.n + 1) + (st.n + 1) by omega, Nat.pow_add]
    exact Nat.mul_self_le_mul_self hhi
  have hfits := mul_self_lt_of_lt hw
  rw [← squareAndExtract_w] at hlo2 hhi2 hfits
  rcases Nat.lt_or_ge (st.w * st.w) (2 ^ (2 * st.n + 1)) with hlt | hge
  · have hn : (squareAndExtract st).n = 2 * st.n := by simp [extractedBit_of_lt hlt]
    rw [← squareAndExtract_w] at hlt
    exact ⟨hn ▸ hlo2, hn ▸ hlt.le, hfits⟩
  · have hn : (squareAndExtract st).n = 2 * st.n + 1 := by simp [extractedBit_of_le hge]
    rw [← squareAndExtract_w] at hge
    exact ⟨hn ▸ hge, hn ▸ hhi2, hfits⟩

theorem loopInv_log2Iteration (mode : RenormRound) (hhalf : 2 ≤ half) (h : LoopInv half st) :
    LoopInv half (log2Iteration mode half st) :=
  loopInv_squareAndExtract (loopInv_renormalise mode hhalf h) (renormalise_w_lt mode hhalf h)

theorem loopInv_log2Loop (mode : RenormRound) (hhalf : 2 ≤ half) (k : Nat) (h : LoopInv half st) :
    LoopInv half (log2Loop mode half k st) := by
  induction k with
  | zero => exact h
  | succ k ih => exact loopInv_log2Iteration mode hhalf ih

/-! ### The set-up -/

/-- Shifting the trailing zeros away loses nothing. -/
theorem two_pow_bsf_dvd {w : Nat} {v : BitVec w} (hv : v ≠ 0#w) : 2 ^ bsf v ∣ v.toNat := by
  rw [← Nat.div_add_mod v.toNat (2 ^ (bsf v + 1)), toNat_mod_two_pow_bsf hv, Nat.pow_succ, Nat.mul_assoc]
  exact Nat.dvd_add (Nat.dvd_mul_right _ _) (dvd_refl _)

theorem log2Init_w_mul {w : Nat} {v : BitVec w} (hv : v ≠ 0#w) : (log2Init v).w * 2 ^ bsf v = v.toNat := by
  rw [log2Init, Nat.shiftRight_eq_div_pow]
  exact Nat.div_mul_cancel (two_pow_bsf_dvd hv)

theorem log2Init_n_add {w : Nat} {v : BitVec w} (hv : v ≠ 0#w) : (log2Init v).n + bsf v = bsr v :=
  Nat.sub_add_cancel (bsf_le_bsr hv)

/-- The mantissa of the input is in [1, 2). -/
theorem log2Init_bounds {w : Nat} {v : BitVec w} (hv : v ≠ 0#w) :
    2 ^ (log2Init v).n ≤ (log2Init v).w ∧ (log2Init v).w < 2 ^ ((log2Init v).n + 1) := by
  obtain ⟨hlo, hhi⟩ := bsr_bounds hv
  have hpos := Nat.two_pow_pos (bsf v)
  rw [← log2Init_w_mul hv, ← log2Init_n_add hv] at hlo hhi
  constructor
  · rw [Nat.pow_add] at hlo
    exact Nat.le_of_mul_le_mul_right hlo hpos
  · rw [Nat.add_right_comm, Nat.pow_add] at hhi
    exact Nat.lt_of_mul_lt_mul_right hhi

theorem loopInv_log2Init {w : Nat} {v : BitVec w} (hv : v ≠ 0#w) (hw : w ≤ 2 * half) : LoopInv half (log2Init v) := by
  obtain ⟨hlo, hhi⟩ := log2Init_bounds hv
  refine ⟨hlo, hhi.le, ?_⟩
  calc (log2Init v).w ≤ v.toNat := Nat.shiftRight_le _ _
    _ < 2 ^ w := v.isLt
    _ ≤ 2 ^ (2 * half) := Nat.pow_le_pow_right two_pos hw

/-! ### The obligations -/

/-- Settles O34: the set-up, a pass, the renormalise step and an iteration each keep the invariant. -/
theorem loopInvariantKept : Obligations.LoopInvariantKept := by
  intro mode half hhalf
  refine ⟨fun v hv => loopInv_log2Init hv le_rfl, fun st h => ⟨fun hw => ?_, ?_, ?_⟩⟩
  · exact ⟨loopInv_renormPass mode hhalf h hw, renormPass_n mode hhalf h hw⟩
  · exact loopInv_renormalise mode hhalf h
  · exact loopInv_log2Iteration mode hhalf h

/-- The exact rounding sum fits W + 1 bits. -/
theorem roundingSum_lt (mode : RenormRound) (h : LoopInv half st) (hw : 2 ^ half ≤ st.w) :
    st.w + roundAddend mode (renormShift half st.w) < 2 ^ (2 * half + 1) := by
  obtain ⟨-, -, hfits⟩ := h
  have hs : renormShift half st.w ≤ 2 * half := by
    have hlog : Nat.log2 st.w < 2 * half := (Nat.log2_lt (Nat.lt_of_lt_of_le (Nat.two_pow_pos _) hw).ne').mpr hfits
    rw [renormShift_eq_log2 hw hfits]
    omega
  have haddend : roundAddend mode (renormShift half st.w) < 2 ^ (2 * half) :=
    (roundAddend_lt mode (Nat.succ_pos _)).trans_le (Nat.pow_le_pow_right two_pos hs)
  rw [Nat.pow_succ]
  omega

/-- Settles O35: the renormalise step leaves w below 2^H and n below H, and the rest follows. -/
theorem loopBounds : Obligations.LoopBounds := by
  intro mode half st hhalf h
  have hw := renormalise_w_lt mode hhalf h
  have hn := renormalise_n_lt mode hhalf h
  have hbit := extractedBit_le_one (renormalise mode half st)
  refine ⟨hw, fun passes hpasses => ?_, roundingSum_lt mode h, mul_self_lt_of_lt hw, by omega, ?_⟩
  · rw [← Nat.add_sub_of_le hpasses, renormWhile_add]
    exact renormWhile_of_lt mode _ hw
  · rw [log2Iteration, squareAndExtract_n]
    omega

/-- Settles O36: a square below 2^W is its own remainder. -/
theorem squareNeverWraps : Obligations.SquareNeverWraps := by
  intro mode half st hhalf h
  have hw := renormalise_w_lt mode hhalf h
  exact ⟨hw, Nat.mod_eq_of_lt (mul_self_lt_of_lt hw)⟩

/-- Under CEIL the rounded value is the least one not below w / 2^s. -/
theorem roundedShift_ceil_bounds (s w : Nat) :
    w ≤ 2 ^ s * roundedShift .ceil s w ∧ 2 ^ s * roundedShift .ceil s w < w + 2 ^ s := by
  have hadd : roundAddend .ceil s = 2 ^ s - 1 := rfl
  have hpos := Nat.two_pow_pos s
  obtain ⟨hle, hlt⟩ := roundedShift_bounds .ceil s w
  rw [Nat.mul_succ] at hlt
  omega

/-- Under HALF_UP it is the floor of w / 2^s + 1/2. -/
theorem roundedShift_halfUp_bounds {s : Nat} (hs : 0 < s) (w : Nat) :
    2 ^ (s + 1) * roundedShift .halfUp s w ≤ 2 * w + 2 ^ s ∧
      2 * w + 2 ^ s < 2 ^ (s + 1) * (roundedShift .halfUp s w + 1) := by
  have hadd : 2 * roundAddend .halfUp s = 2 ^ s := mul_pow_sub_one hs.ne' 2
  obtain ⟨hle, hlt⟩ := roundedShift_bounds .halfUp s w
  rw [Nat.pow_succ', Nat.mul_assoc, Nat.mul_assoc]
  omega

/-- Settles O37: floor division of the exact sum, with the addend of each mode. -/
theorem passRoundsExactly : Obligations.PassRoundsExactly := by
  intro half st hhalf h hw
  refine ⟨_, rfl, h.shift_le hhalf hw, fun mode => by rw [renormPass_eq mode h hw], ?_, ?_⟩ <;> rw [renormPass_eq _ h hw]
  · exact roundedShift_ceil_bounds _ _
  · exact roundedShift_halfUp_bounds (Nat.succ_pos _) _

end Sys2Proof.Machine
end

section
/-! PROOFS. The result bits, and the loop of LOG2CORE as the relation of 42_fixed_point_log2.md R132. -/

namespace Sys2Proof.Machine

open Sys2Proof.Claims

variable {half : Nat} {st : LoopState}

/-! ### The result bits -/

/-- A shift of fewer than 32 result bits loses none (R137). -/
theorem shiftLeft_one_toNat {r : Word32} (h : r.toNat < 2 ^ 31) : (r <<< 1).toNat = 2 * r.toNat := by
  rw [BitVec.toNat_shiftLeft, Nat.shiftLeft_eq, pow_one, Nat.mul_comm]
  exact Nat.mod_eq_of_lt (by omega)

/-- The extract step appends its bit to the result bits. -/
theorem squareAndExtract_r_toNat (h : st.r.toNat < 2 ^ 31) :
    (squareAndExtract st).r.toNat = 2 * st.r.toNat + extractedBit st := by
  have hshift := shiftLeft_one_toNat h
  unfold squareAndExtract extractedBit
  dsimp only
  split
  · rw [BitVec.toNat_or, hshift]
    exact (Nat.two_pow_add_eq_or_of_lt (i := 1) one_lt_two st.r.toNat).symm
  · exact hshift

/-- An iteration appends the bit that the renormalised working value gives. -/
theorem log2Iteration_r_toNat (mode : RenormRound) (h : st.r.toNat < 2 ^ 31) :
    (log2Iteration mode half st).r.toNat = 2 * st.r.toNat + extractedBit (renormalise mode half st) := by
  rw [log2Iteration, squareAndExtract_r_toNat (by rwa [renormalise_r]), renormalise_r]

/-- Within the caps the result bits never reach the top of their register. -/
theorem log2Loop_r_lt_two_pow_31 (mode : RenormRound) (half : Nat) {k : Nat} (hr : st.r = 0#32) (hk : k ≤ 31) :
    (log2Loop mode half k st).r.toNat < 2 ^ 31 :=
  (log2Loop_r_lt mode half hr k).trans_le (Nat.pow_le_pow_right two_pos hk)

/-- Settles O32: k iterations give k bits, and fewer than 31 bits can be shifted. -/
theorem fractionHasFBits : Obligations.FractionHasFBits := by
  intro mode half st f hf hr
  refine ⟨log2Loop_r_lt mode half hr f, fun k hk => shiftLeft_one_toNat ?_⟩
  exact log2Loop_r_lt_two_pow_31 mode half hr (by omega)

/-! ### The relation -/

theorem rnd_eq_roundAddend (mode : RenormRound) (s : Nat) : rnd mode s = roundAddend mode s := by
  cases mode <;> rfl

/-- Passes that bring w below 2^H are a run of the while loop. -/
theorem renormLoop_renormWhile {mode : RenormRound} {passes : Nat} (hhalf : 2 ≤ half) (h : LoopInv half st)
    (hw : (renormWhile mode half passes st).w < 2 ^ half) :
    RenormLoop mode half st.w st.n (renormWhile mode half passes st).w (renormWhile mode half passes st).n := by
  induction passes generalizing st with
  | zero => exact .done _ _ hw
  | succ passes ih =>
    rcases Nat.lt_or_ge st.w (2 ^ half) with hlt | hge
    · rw [renormWhile_of_lt mode _ hlt]
      exact .done _ _ hlt
    · rw [renormWhile_succ_of_le mode _ hge] at hw ⊢
      have hrest := ih (loopInv_renormPass mode hhalf h hge) hw
      refine .pass _ _ _ _ _ hge rfl (h.shift_le hhalf hge) ?_
      rw [rnd_eq_roundAddend, ← Nat.shiftRight_eq_div_pow]
      rwa [renormPass_eq mode h hge] at hrest ⊢

theorem renormLoop_renormalise (mode : RenormRound) (hhalf : 2 ≤ half) (h : LoopInv half st) :
    RenormLoop mode half st.w st.n (renormalise mode half st).w (renormalise mode half st).n :=
  renormLoop_renormWhile hhalf h (renormalise_w_lt mode hhalf h)

/-- `repeat F times` as the model runs it is a run of the relation, as long as the result bits fit their register. -/
theorem repeatLoop_log2Loop (mode : RenormRound) (hhalf : 2 ≤ half) {j k : Nat} (hjk : j + k ≤ 32)
    (h : LoopInv half st) (hr : st.r.toNat < 2 ^ j) :
    RepeatLoop mode half k st.w st.n st.r.toNat (log2Loop mode half k st).r.toNat := by
  induction k generalizing st j with
  | zero => exact .done _ _ _
  | succ k ih =>
    have hrest := ih (by omega : j + 1 + k ≤ 32) (loopInv_log2Iteration mode hhalf h) (log2Iteration_r_lt mode half hr)
    have hr31 : st.r.toNat < 2 ^ 31 := hr.trans_le (Nat.pow_le_pow_right two_pos (by omega))
    rw [log2Loop_iteration, log2Iteration_r_toNat mode hr31] at hrest
    rw [log2Iteration, squareAndExtract_w, squareAndExtract_n] at hrest
    have hloop := renormLoop_renormalise mode hhalf h
    rcases Nat.lt_or_ge ((renormalise mode half st).w * (renormalise mode half st).w)
      (2 ^ (2 * (renormalise mode half st).n + 1)) with hlt | hge
    · rw [extractedBit_of_lt hlt] at hrest
      exact .bitClear _ _ _ _ _ _ _ hloop hlt hrest
    · rw [extractedBit_of_le hge] at hrest
      exact .bitSet _ _ _ _ _ _ _ hloop hge hrest

/-- The scans give the indices of R12. -/
theorem scanIndices_bsf_bsr {w : Nat} {v : BitVec w} (hv : v ≠ 0#w) : ScanIndices v.toNat (bsf v) (bsr v) := by
  obtain ⟨-, hset, hclear⟩ := bsf_spec hv
  obtain ⟨-, hset', hclear'⟩ := bsr_spec hv
  exact ⟨hset, hclear, hset', hclear'⟩

theorem log2Fraction_of_bsf_eq_bsr {w f : Nat} {v : BitVec w} (mode : RenormRound) (h : bsf v = bsr v) :
    log2Fraction mode half v f = 0#32 := if_pos h

theorem log2Fraction_of_bsf_ne_bsr {w f : Nat} {v : BitVec w} (mode : RenormRound) (h : bsf v ≠ bsr v) :
    log2Fraction mode half v f = (log2Loop mode half f (log2Init v)).r := if_neg h

/-- The fraction and integer part of a nonzero input are those of R132. -/
theorem log2Fraction_runs_algorithm {w f : Nat} {v : BitVec w} (mode : RenormRound) (hhalf : 2 ≤ half) (hv : v ≠ 0#w)
    (hw : w ≤ 2 * half) (hf : f ≤ 32) :
    ScanIndices v.toNat (bsf v) (bsr v) ∧ (bsf v = bsr v → (log2Fraction mode half v f).toNat = 0) ∧
      (bsf v ≠ bsr v →
        RepeatLoop mode half f (v.toNat / 2 ^ bsf v) (bsr v - bsf v) 0 (log2Fraction mode half v f).toNat) := by
  refine ⟨scanIndices_bsf_bsr hv, fun h => ?_, fun h => ?_⟩
  · rw [log2Fraction_of_bsf_eq_bsr mode h]
    rfl
  · have hloop := repeatLoop_log2Loop mode hhalf (by omega : 0 + f ≤ 32) (loopInv_log2Init hv hw) Nat.one_pos
    rw [log2Fraction_of_bsf_ne_bsr mode h, ← Nat.shiftRight_eq_div_pow]
    exact hloop

theorem input32_ne_zero {v : Word64} (hv : v.toNat % 2 ^ 32 ≠ 0) : input32 v ≠ 0#32 :=
  mt (input32_eq_zero v).mp hv

/-- Settles O27: LOG2CORE's loop is a run of the relation, at W = 32 and H = 16. -/
theorem log2_32RunsTheAlgorithm : Obligations.Log2_32RunsTheAlgorithm := by
  intro s v f hr hf hv
  obtain ⟨hscan, hzero, hloop⟩ := log2Fraction_runs_algorithm (half := 16) (f := f) s.renormRound (by decide)
    (input32_ne_zero hv) (by decide) (by omega)
  rw [input32_toNat] at hscan hloop
  refine ⟨_, _, _, hscan, BitVec.isLt _, hzero, hloop, ?_⟩
  rw [exec_log2_32_of_ne_zero hr hf hv, BitVec.ofNat_toNat, BitVec.setWidth_eq]

/-- Settles O28: LOG2CORE's loop is a run of the relation, at W = 64 and H = 32. -/
theorem log2_64RunsTheAlgorithm : Obligations.Log2_64RunsTheAlgorithm := by
  intro s v f hr hf hv
  obtain ⟨hscan, hzero, hloop⟩ := log2Fraction_runs_algorithm (half := 32) (f := f) s.renormRound (by decide) hv
    (by decide) (by omega)
  refine ⟨_, _, _, hscan, BitVec.isLt _, hzero, hloop, ?_⟩
  rw [exec_log2_64_of_ne_zero hr hf hv, BitVec.ofNat_toNat, BitVec.setWidth_eq]

end Sys2Proof.Machine
end

section
/-! PROOFS. The LOG2 commands on each kind of input: above the cap, zero, a power of two, F = 0; and their integer part
(42_fixed_point_log2.md R133, R143 to R145, R148, R150). -/

namespace Sys2Proof.Machine

variable {w half cap f : Nat} {v : BitVec w}

/-! ### The checks before the loop -/

theorem log2Core_of_cap_lt (v : BitVec w) (s : State) (hf : cap < f) :
    log2Core half cap v f s = .next { s with status := 0x41#32 } := by
  have hstatus : faultStatus .fracBitsExceeded = 0x41#32 := by decide
  rw [log2Core, if_pos hf, raiseFault, hstatus]

theorem log2Core_of_zero (s : State) (hf : f ≤ cap) :
    log2Core half cap (0#w) f s = .next { s with result := .value 0xFFFFFFFF#32 } := by
  rw [log2Core, if_neg (Nat.not_lt.mpr hf), if_pos rfl]
  rfl

/-- Settles O29: LOG2CORE looks at the cap first and at the zero input next. -/
theorem log2CapComesBeforeZero : Obligations.Log2CapComesBeforeZero := by
  intro s v f hr
  rw [exec_log2_32_of_ready hr, exec_log2_64_of_ready hr]
  refine ⟨log2Core_of_cap_lt _ s, log2Core_of_cap_lt _ s, fun hf hv => ?_, fun hf hv => ?_⟩
  · rw [(input32_eq_zero v).mpr hv]
    exact log2Core_of_zero s hf
  · rw [hv]
    exact log2Core_of_zero s hf

/-! ### Fractions that are zero -/

theorem log2Fraction_zero_bits (mode : RenormRound) (v : BitVec w) : log2Fraction mode half v 0 = 0#32 := by
  unfold log2Fraction
  split <;> rfl

theorem log2Fraction_twoPow (mode : RenormRound) {k : Nat} (hk : k < w) :
    log2Fraction mode half (BitVec.twoPow w k) f = 0#32 :=
  log2Fraction_of_bsf_eq_bsr mode ((bsf_twoPow hk).trans (bsr_twoPow hk).symm)

theorem input32_twoPow {k : Nat} (hk : k < 32) : input32 (BitVec.twoPow 64 k) = BitVec.twoPow 32 k := by
  apply BitVec.eq_of_getLsbD_eq
  intro j hj
  rw [getLsbD_input32, BitVec.getLsbD_twoPow, BitVec.getLsbD_twoPow]
  simp [hj, hk, hk.trans (by decide : 32 < 64)]

/-- Settles O30: the one set bit is the lowest and the highest, so the fast path is taken. -/
theorem log2OfPowersOfTwo : Obligations.Log2OfPowersOfTwo := by
  refine fun s k f hr => ⟨fun hk hf => ?_, fun hk hf => ?_⟩
  · rw [exec_log2_64_of_ne_zero hr hf (twoPow_ne_zero hk), bsr_twoPow hk, log2Fraction_twoPow _ hk]
  · have hinput := input32_twoPow hk
    have hne : (BitVec.twoPow 64 k).toNat % 2 ^ 32 ≠ 0 :=
      mt (input32_eq_zero _).mpr (hinput ▸ twoPow_ne_zero hk)
    rw [exec_log2_32_of_ne_zero hr hf hne, hinput, bsr_twoPow hk, log2Fraction_twoPow _ hk]

/-- Settles O31: no iteration gives no bits, and `bsr` is the logarithm rounded down. -/
theorem log2WithoutFractionBits : Obligations.Log2WithoutFractionBits := by
  refine fun s v hr => ⟨fun hv => ?_, fun hv => ?_⟩
  · rw [exec_log2_32_of_ne_zero hr (by decide) hv, log2Fraction_zero_bits, bsr_eq_log2 (input32_ne_zero hv),
      input32_toNat]
  · rw [exec_log2_64_of_ne_zero hr (by decide) hv, log2Fraction_zero_bits, bsr_eq_log2 hv]

/-! ### The range of the results -/

theorem log2Fraction_lt_two_pow_30 (mode : RenormRound) (half : Nat) (v : BitVec w) (hf : f ≤ 30) :
    (log2Fraction mode half v f).toNat < 2 ^ 30 :=
  (log2Fraction_lt mode half v f).trans_le (Nat.pow_le_pow_right two_pos hf)

theorem ne_sentinel_of_lt {r : Word32} (h : r.toNat < 2 ^ 30) : r ≠ 0xFFFFFFFF#32 := by
  rintro rfl
  exact absurd h (by decide)

/-- Settles O33: a fraction has at most 30 bits, and the sentinel has 32. -/
theorem sentinelIsNoFraction : Obligations.SentinelIsNoFraction := by
  refine fun s v f hr => ⟨fun hf hv => ?_, fun hf hv => ?_⟩
  · have h := log2Fraction_lt_two_pow_30 s.renormRound 16 (input32 v) (by omega : f ≤ 30)
    exact ⟨_, _, exec_log2_32_of_ne_zero hr hf hv, rfl, h, ne_sentinel_of_lt h⟩
  · have h := log2Fraction_lt_two_pow_30 s.renormRound 32 v hf
    exact ⟨_, _, exec_log2_64_of_ne_zero hr hf hv, rfl, h, ne_sentinel_of_lt h⟩

/-- INT_PART holds the index of the highest set bit without loss (10_state.md R24). -/
theorem toNat_ofNat_bsr (hv : v ≠ 0#w) (hw : w ≤ 64) : (BitVec.ofNat 32 (bsr v)).toNat = bsr v := by
  have hlt := (bsr_spec hv).1
  rw [BitVec.toNat_ofNat]
  exact Nat.mod_eq_of_lt (by omega)

/-- The index of the highest set bit is the real logarithm rounded down (R150). -/
theorem bsr_eq_floor_logb (hv : v ≠ 0#w) : (bsr v : Int) = ⌊Real.logb 2 (v.toNat : ℝ)⌋ := by
  have hfloor : ⌊Real.logb ((2 : ℕ) : ℝ) (v.toNat : ℝ)⌋ = Int.log 2 (v.toNat : ℝ) :=
    Real.floor_logb_natCast (Nat.cast_nonneg _)
  rw [Nat.cast_two, Int.log_natCast, ← Nat.log2_eq_log_two, ← bsr_eq_log2 hv] at hfloor
  exact hfloor.symm

/-- Settles O42: INT_PART is `bsr`. -/
theorem intPartIsFloorOfLog2 : Obligations.IntPartIsFloorOfLog2 := by
  refine fun s v f hr => ⟨fun hf hv => ?_, fun hf hv => ?_⟩
  · have hi := toNat_ofNat_bsr (input32_ne_zero hv) (by decide)
    have hfloor := bsr_eq_floor_logb (input32_ne_zero hv)
    rw [input32_toNat] at hfloor
    exact ⟨_, _, exec_log2_32_of_ne_zero hr hf hv, rfl, by rw [hi, hfloor], hi⟩
  · have hi := toNat_ofNat_bsr hv le_rfl
    exact ⟨_, _, exec_log2_64_of_ne_zero hr hf hv, rfl, by rw [hi, bsr_eq_floor_logb hv], hi⟩

/-- Settles O43: what a LOG2 command writes is named by its input, F and the parameter. -/
theorem log2IsAFunctionOfItsInput : Obligations.Log2IsAFunctionOfItsInput := by
  refine fun s s' v v' f hr hr' hmode => ⟨fun hf hvv' hv => ?_, fun hf hvv' hv => ?_⟩
  · have hinput : input32 v = input32 v' := BitVec.eq_of_toNat_eq (by rw [input32_toNat, input32_toNat, hvv'])
    refine ⟨_, _, exec_log2_32_of_ne_zero hr hf hv, ?_⟩
    rw [exec_log2_32_of_ne_zero hr' hf (hvv' ▸ hv), hinput, hmode]
  · subst hvv'
    refine ⟨_, _, exec_log2_64_of_ne_zero hr hf hv, ?_⟩
    rw [exec_log2_64_of_ne_zero hr' hf hv, hmode]

end Sys2Proof.Machine
end

section
/-! PROOFS. The loop of LOG2CORE over the reals: the mantissa w / 2^n, and the logarithm that a loop state stands for
(42_fixed_point_log2.md R142, R146, R147, R149). -/

namespace Sys2Proof.Machine

variable {half : Nat} {st : LoopState}

/-! ### Rounding to an integer -/

/-- The integer that a RENORM_ROUND rounds to (R134 (a)). -/
noncomputable def roundInt : RenormRound → ℝ → ℤ
  | .ceil, y => ⌈y⌉
  | .halfUp, y => round y

@[simp] theorem roundInt_intCast (mode : RenormRound) (k : ℤ) : roundInt mode (k : ℝ) = k := by
  cases mode with
  | ceil => exact Int.ceil_intCast k
  | halfUp => exact round_intCast k

@[simp] theorem roundInt_natCast (mode : RenormRound) (k : ℕ) : roundInt mode (k : ℝ) = k := by
  exact_mod_cast roundInt_intCast mode k

theorem roundInt_mono (mode : RenormRound) {y z : ℝ} (h : y ≤ z) : roundInt mode y ≤ roundInt mode z := by
  cases mode with
  | ceil => exact Int.ceil_mono h
  | halfUp =>
    rw [roundInt, roundInt, round_eq, round_eq]
    exact Int.floor_mono (by linarith)

theorem sub_half_le_roundInt (mode : RenormRound) (y : ℝ) : y - 1 / 2 ≤ roundInt mode y := by
  cases mode with
  | ceil => exact (sub_le_self y (by norm_num)).trans (Int.le_ceil y)
  | halfUp => exact (sub_half_lt_round y).le

theorem roundInt_le_add_one (mode : RenormRound) (y : ℝ) : roundInt mode y ≤ y + 1 := by
  cases mode with
  | ceil => exact (Int.ceil_lt_add_one y).le
  | halfUp => exact (round_le_add_half y).trans (by linarith)

/-- The shift with its addend rounds the exact quotient. -/
theorem roundedShift_eq_roundInt (mode : RenormRound) {s : Nat} (hs : 0 < s) (w : Nat) :
    (roundedShift mode s w : ℤ) = roundInt mode ((w : ℝ) / 2 ^ s) := by
  have hpos : (0 : ℝ) < 2 ^ s := by positivity
  symm
  cases mode with
  | ceil =>
    obtain ⟨hle, hlt⟩ := roundedShift_ceil_bounds s w
    rify at hle hlt
    rw [roundInt, Int.ceil_eq_iff, Int.cast_natCast, lt_div_iff₀ hpos, div_le_iff₀ hpos]
    constructor <;> linarith
  | halfUp =>
    obtain ⟨hle, hlt⟩ := roundedShift_halfUp_bounds hs w
    rify at hle hlt
    rw [pow_succ] at hle hlt
    rw [roundInt, round_eq, Int.floor_eq_iff, Int.cast_natCast, div_add' _ _ _ hpos.ne', le_div_iff₀ hpos,
      div_lt_iff₀ hpos]
    constructor <;> linarith

/-! ### The mantissa -/

/-- The number in [1, 2] that the working value stands for. -/
noncomputable def LoopState.mantissa (st : LoopState) : ℝ := st.w / 2 ^ st.n

theorem mantissa_nonneg (st : LoopState) : 0 ≤ st.mantissa := by
  unfold LoopState.mantissa
  positivity

theorem one_le_mantissa (h : LoopInv half st) : 1 ≤ st.mantissa := by
  rw [LoopState.mantissa, one_le_div (by positivity)]
  exact_mod_cast h.1

theorem mantissa_le_two (h : LoopInv half st) : st.mantissa ≤ 2 := by
  rw [LoopState.mantissa, div_le_iff₀ (by positivity), ← pow_succ']
  exact_mod_cast h.2.1

theorem mantissa_of_eq_two_pow (h : st.w = 2 ^ (st.n + 1)) : st.mantissa = 2 := by
  rw [LoopState.mantissa, h, Nat.cast_pow, Nat.cast_two, pow_succ', mul_div_cancel_right₀ _ (by positivity)]

/-- A count of at most k puts the mantissa on the grid of 2^-k. -/
theorem mantissa_mul_two_pow {k : Nat} (h : st.n ≤ k) : st.mantissa * 2 ^ k = ((st.w * 2 ^ (k - st.n) : ℕ) : ℝ) := by
  obtain ⟨d, rfl⟩ := Nat.exists_eq_add_of_le h
  rw [LoopState.mantissa, Nat.add_sub_cancel_left, pow_add]
  push_cast
  field_simp

/-- The mantissa of an input is v / 2^ms. -/
theorem mantissa_log2Init {w : Nat} {v : BitVec w} (hv : v ≠ 0#w) :
    (log2Init v).mantissa = (v.toNat : ℝ) / 2 ^ bsr v := by
  rw [LoopState.mantissa, ← log2Init_w_mul hv, ← log2Init_n_add hv, pow_add, Nat.cast_mul, Nat.cast_pow, Nat.cast_two,
    mul_div_mul_right _ _ (by positivity)]

/-! ### The renormalise step rounds the mantissa to the grid of 2^-(H-1) -/

theorem mantissa_renormPass (mode : RenormRound) (hhalf : 2 ≤ half) (h : LoopInv half st) (hw : 2 ^ half ≤ st.w) :
    (renormPass mode half st).mantissa * 2 ^ (half - 1) = roundInt mode (st.mantissa * 2 ^ (half - 1)) := by
  rcases renormPass_cases mode hhalf h hw with ⟨hn, -, heq⟩ | ⟨-, htwo, heq⟩ <;> rw [heq]
  · have hquot : st.mantissa * 2 ^ (half - 1) = (st.w : ℝ) / 2 ^ (st.n - half + 1) := by
      rw [LoopState.mantissa, div_mul_eq_mul_div, div_eq_div_iff (by positivity) (by positivity), mul_assoc, ← pow_add,
        show half - 1 + (st.n - half + 1) = st.n by omega]
    rw [hquot, ← roundedShift_eq_roundInt mode (Nat.succ_pos _), mantissa_mul_two_pow le_rfl]
    simp
  · have hmant : (⟨2 ^ (half - 1), half - 2, st.r⟩ : LoopState).mantissa = 2 :=
      mantissa_of_eq_two_pow (by rw [show half - 2 + 1 = half - 1 by omega])
    have hgrid : (2 : ℝ) * 2 ^ (half - 1) = ((2 * 2 ^ (half - 1) : ℕ) : ℝ) := by push_cast; rfl
    rw [hmant, mantissa_of_eq_two_pow htwo, hgrid, roundInt_natCast, Int.cast_natCast]

/-- Below 2^H the mantissa is on the grid already. -/
theorem mantissa_of_w_lt (mode : RenormRound) (h : LoopInv half st) (hw : st.w < 2 ^ half) :
    st.mantissa * 2 ^ (half - 1) = roundInt mode (st.mantissa * 2 ^ (half - 1)) := by
  have hn := h.n_lt_of_w_lt hw
  rw [mantissa_mul_two_pow (by omega), roundInt_natCast, Int.cast_natCast]

theorem mantissa_renormWhile {mode : RenormRound} {passes : Nat} (hhalf : 2 ≤ half) (h : LoopInv half st)
    (hw : (renormWhile mode half passes st).w < 2 ^ half) :
    (renormWhile mode half passes st).mantissa * 2 ^ (half - 1) = roundInt mode (st.mantissa * 2 ^ (half - 1)) := by
  induction passes generalizing st with
  | zero => exact mantissa_of_w_lt mode h hw
  | succ passes ih =>
    rcases Nat.lt_or_ge st.w (2 ^ half) with hlt | hge
    · rw [renormWhile_of_lt mode _ hlt]
      exact mantissa_of_w_lt mode h hlt
    · rw [renormWhile_succ_of_le mode _ hge] at hw ⊢
      rw [ih (loopInv_renormPass mode hhalf h hge) hw, mantissa_renormPass mode hhalf h hge, roundInt_intCast]

theorem mantissa_renormalise (mode : RenormRound) (hhalf : 2 ≤ half) (h : LoopInv half st) :
    (renormalise mode half st).mantissa * 2 ^ (half - 1) = roundInt mode (st.mantissa * 2 ^ (half - 1)) :=
  mantissa_renormWhile hhalf h (renormalise_w_lt mode hhalf h)

/-! ### The extract step -/

theorem extractedBit_eq (st : LoopState) : extractedBit st = if 2 ≤ st.mantissa ^ 2 then 1 else 0 := by
  have hiff : 2 ^ (2 * st.n + 1) ≤ st.w * st.w ↔ 2 ≤ st.mantissa ^ 2 := by
    rw [LoopState.mantissa, div_pow, le_div_iff₀ (by positivity), ← pow_mul, ← pow_succ', mul_comm st.n, sq]
    exact_mod_cast Iff.rfl
  simp only [extractedBit, hiff]

theorem mantissa_squareAndExtract (st : LoopState) :
    (squareAndExtract st).mantissa = st.mantissa ^ 2 / 2 ^ extractedBit st := by
  rw [LoopState.mantissa, squareAndExtract_w, squareAndExtract_n, LoopState.mantissa, pow_add, div_pow, ← pow_mul,
    mul_comm st.n, div_div, Nat.cast_mul, sq]

end Sys2Proof.Machine
end

section
/-! PROOFS. LOG2 is monotone (42_fixed_point_log2.md R146). -/

namespace Sys2Proof.Machine

variable {half : Nat} {a b : LoopState}

/-! ### The loop keeps the order of result bits and mantissa -/

/-- The lexicographic order of (result bits, mantissa). -/
def Precedes (a b : LoopState) : Prop :=
  a.r.toNat < b.r.toNat ∨ (a.r.toNat = b.r.toNat ∧ a.mantissa ≤ b.mantissa)

theorem Precedes.r_le (h : Precedes a b) : a.r.toNat ≤ b.r.toNat := by
  rcases h with hlt | ⟨heq, -⟩
  · exact hlt.le
  · exact heq.le

/-- The grid of the renormalise step is the same for both states, and rounding to it is monotone. -/
theorem renormalise_mantissa_mono (mode : RenormRound) (hhalf : 2 ≤ half) (ha : LoopInv half a) (hb : LoopInv half b)
    (h : a.mantissa ≤ b.mantissa) : (renormalise mode half a).mantissa ≤ (renormalise mode half b).mantissa := by
  have hpos : (0 : ℝ) < 2 ^ (half - 1) := by positivity
  refine le_of_mul_le_mul_right ?_ hpos
  rw [mantissa_renormalise mode hhalf ha, mantissa_renormalise mode hhalf hb]
  exact_mod_cast roundInt_mono mode (mul_le_mul_of_nonneg_right h hpos.le)

theorem Precedes.renormalise (mode : RenormRound) (hhalf : 2 ≤ half) (ha : LoopInv half a) (hb : LoopInv half b)
    (h : Precedes a b) : Precedes (renormalise mode half a) (renormalise mode half b) := by
  unfold Precedes
  rw [renormalise_r, renormalise_r]
  exact h.imp_right fun ⟨hr, hm⟩ => ⟨hr, renormalise_mantissa_mono mode hhalf ha hb hm⟩

/-- The extract step emits bits in the order of the mantissas. -/
theorem Precedes.squareAndExtract (ha : a.r.toNat < 2 ^ 31) (hb : b.r.toNat < 2 ^ 31) (h : Precedes a b) :
    Precedes (squareAndExtract a) (squareAndExtract b) := by
  have hbit := extractedBit_le_one a
  unfold Precedes
  rw [squareAndExtract_r_toNat ha, squareAndExtract_r_toNat hb]
  rcases h with hlt | ⟨hr, hm⟩
  · exact .inl (by omega)
  have hsq : a.mantissa ^ 2 ≤ b.mantissa ^ 2 := pow_le_pow_left₀ (mantissa_nonneg a) hm 2
  have hmono : extractedBit a ≤ extractedBit b := by
    rw [extractedBit_eq, extractedBit_eq]
    split_ifs with h1 h2
    · exact le_rfl
    · exact absurd (h1.trans hsq) h2
    · exact Nat.zero_le _
    · exact le_rfl
  rcases hmono.lt_or_eq with hlt | heq
  · exact .inl (by omega)
  · refine .inr ⟨by omega, ?_⟩
    rw [mantissa_squareAndExtract, mantissa_squareAndExtract, heq]
    gcongr

theorem log2Loop_precedes (mode : RenormRound) (hhalf : 2 ≤ half) (ha : LoopInv half a) (hb : LoopInv half b)
    (hra : a.r = 0#32) (hrb : b.r = 0#32) (h : Precedes a b) {k : Nat} (hk : k ≤ 31) :
    Precedes (log2Loop mode half k a) (log2Loop mode half k b) := by
  induction k with
  | zero => exact h
  | succ k ih =>
    have hstep := (ih (by omega)).renormalise mode hhalf (loopInv_log2Loop mode hhalf k ha) (loopInv_log2Loop mode hhalf k hb)
    refine hstep.squareAndExtract ?_ ?_ <;> rw [renormalise_r]
    · exact log2Loop_r_lt_two_pow_31 mode half hra (by omega)
    · exact log2Loop_r_lt_two_pow_31 mode half hrb (by omega)

/-! ### The fast path -/

/-- The fast path gives what the loop would give: at a mantissa of 1 every bit is 0. -/
theorem log2Loop_one (mode : RenormRound) (hhalf : 0 < half) (k : Nat) :
    log2Loop mode half k ⟨1, 0, 0#32⟩ = ⟨1, 0, 0#32⟩ := by
  induction k with
  | zero => rfl
  | succ k ih =>
    rw [log2Loop, ih, log2Iteration, renormalise, renormWhile_of_lt mode 2 (Nat.one_lt_two_pow hhalf.ne')]
    rfl

theorem log2Fraction_eq_log2Loop (mode : RenormRound) (hhalf : 0 < half) {w : Nat} {v : BitVec w} (hv : v ≠ 0#w) (f : Nat) :
    log2Fraction mode half v f = (log2Loop mode half f (log2Init v)).r := by
  by_cases h : bsf v = bsr v
  · obtain ⟨hlo, hhi⟩ := log2Init_bounds hv
    have hn : (log2Init v).n = 0 := by
      have := log2Init_n_add hv
      omega
    rw [hn] at hlo hhi
    have hw : (log2Init v).w = 1 := le_antisymm (Nat.lt_succ_iff.mp hhi) hlo
    have hinit : log2Init v = ⟨1, 0, 0#32⟩ := congrArg₂ (fun w n => LoopState.mk w n 0#32) hw hn
    rw [log2Fraction_of_bsf_eq_bsr mode h, hinit, log2Loop_one mode hhalf]
  · exact log2Fraction_of_bsf_ne_bsr mode h

/-! ### The commands -/

/-- `INT_PART * 2^F + RESULT` is monotone in the input. -/
theorem log2_scaled_mono (mode : RenormRound) (hhalf : 2 ≤ half) {w f : Nat} (hw : w ≤ 2 * half) (hf : f ≤ 31)
    {x y : BitVec w} (hx : x ≠ 0#w) (hxy : x.toNat < y.toNat) :
    bsr x * 2 ^ f + (log2Fraction mode half x f).toNat ≤ bsr y * 2 ^ f + (log2Fraction mode half y f).toNat := by
  have hy : y ≠ 0#w := by
    rintro rfl
    exact Nat.not_lt_zero _ hxy
  obtain ⟨hlo, -⟩ := bsr_bounds hx
  obtain ⟨-, hhi⟩ := bsr_bounds hy
  have hbsr : bsr x < bsr y + 1 := (Nat.pow_lt_pow_iff_right one_lt_two).mp (hlo.trans_lt (hxy.trans hhi))
  rcases (Nat.lt_succ_iff.mp hbsr).lt_or_eq with hlt | heq
  · calc bsr x * 2 ^ f + (log2Fraction mode half x f).toNat
        ≤ bsr x * 2 ^ f + 2 ^ f := Nat.add_le_add_left (log2Fraction_lt mode half x f).le _
      _ = (bsr x + 1) * 2 ^ f := (Nat.succ_mul _ _).symm
      _ ≤ bsr y * 2 ^ f := Nat.mul_le_mul_right _ hlt
      _ ≤ _ := Nat.le_add_right _ _
  · have hinit : Precedes (log2Init x) (log2Init y) := by
      refine .inr ⟨rfl, ?_⟩
      rw [mantissa_log2Init hx, mantissa_log2Init hy, heq]
      gcongr
    have hloop := log2Loop_precedes mode hhalf (loopInv_log2Init hx hw) (loopInv_log2Init hy hw) rfl rfl hinit hf
    rw [heq, log2Fraction_eq_log2Loop mode (by omega) hx, log2Fraction_eq_log2Loop mode (by omega) hy]
    exact Nat.add_le_add_left hloop.r_le _

/-- Settles O38: INT_PART is monotone, and within one INT_PART the loop keeps the order of the mantissas. -/
theorem log2IsMonotone : Obligations.Log2IsMonotone := by
  refine fun s a b f hs => ⟨fun hf ha hab => ?_, fun hf ha hab => ?_⟩
  · have ha0 := input32_ne_zero ha.ne'
    have hb0 := input32_ne_zero (ha.trans hab).ne'
    rw [← input32_toNat, ← input32_toNat] at hab
    refine ⟨_, _, _, _, exec_log2_32_of_ne_zero ⟨hs, rfl⟩ hf ha.ne', exec_log2_32_of_ne_zero ⟨hs, rfl⟩ hf ?_, rfl, rfl, ?_⟩
    · exact fun h => hb0 ((input32_eq_zero b).mpr h)
    · rw [toNat_ofNat_bsr ha0 (by decide), toNat_ofNat_bsr hb0 (by decide)]
      exact log2_scaled_mono s.renormRound (half := 16) (by decide) (by decide) (by omega) ha0 hab
  · have ha0 : a ≠ 0#64 := by
      rintro rfl
      exact absurd ha (by decide)
    have hb0 : b ≠ 0#64 := by
      rintro rfl
      exact absurd hab (Nat.not_lt_zero _)
    refine ⟨_, _, _, _, exec_log2_64_of_ne_zero ⟨hs, rfl⟩ hf ha0, exec_log2_64_of_ne_zero ⟨hs, rfl⟩ hf hb0, rfl, rfl, ?_⟩
    rw [toNat_ofNat_bsr ha0 le_rfl, toNat_ofNat_bsr hb0 le_rfl]
    exact log2_scaled_mono s.renormRound (half := 32) (by decide) (by decide) (by omega) ha0 hab

end Sys2Proof.Machine
end

section
/-! PROOFS. How close the fraction is to the real logarithm: exact without a renormalisation pass, never below under CEIL, and the
error-bound scenario (42_fixed_point_log2.md R142, R147, R149). -/

namespace Sys2Proof.Machine

open Sys2Proof.Claims

variable {half k : Nat} {st : LoopState}

/-! ### The logarithm a loop state stands for -/

/-- The result bits so far, with the logarithm of the mantissa as the part still to come. -/
noncomputable def LoopState.logValue (st : LoopState) : ℝ := st.r.toNat + Real.logb 2 st.mantissa

/-- The mantissa's logarithm is in [0, 1]. -/
theorem r_le_logValue (h : LoopInv half st) : (st.r.toNat : ℝ) ≤ st.logValue :=
  le_add_of_nonneg_right (Real.logb_nonneg one_lt_two (one_le_mantissa h))

theorem logValue_le_r_add_one (h : LoopInv half st) : st.logValue ≤ st.r.toNat + 1 := by
  refine add_le_add_right ?_ _
  rw [Real.logb_le_iff_le_rpow one_lt_two (zero_lt_one.trans_le (one_le_mantissa h)), Real.rpow_one]
  exact mantissa_le_two h

theorem logValue_lt_r_add_one (h : LoopInv half st) (hlt : st.mantissa < 2) : st.logValue < st.r.toNat + 1 := by
  refine add_lt_add_right ?_ _
  rwa [Real.logb_lt_iff_lt_rpow one_lt_two (zero_lt_one.trans_le (one_le_mantissa h)), Real.rpow_one]

/-- Squaring doubles the logarithm, and the extracted bit moves into the result bits (R130). -/
theorem logValue_squareAndExtract (h : LoopInv half st) (hr : st.r.toNat < 2 ^ 31) :
    (squareAndExtract st).logValue = 2 * st.logValue := by
  have hne : st.mantissa ≠ 0 := (zero_lt_one.trans_le (one_le_mantissa h)).ne'
  have hlog : Real.logb 2 (squareAndExtract st).mantissa = 2 * Real.logb 2 st.mantissa - extractedBit st := by
    rw [mantissa_squareAndExtract, Real.logb_div (pow_ne_zero 2 hne) (by positivity), Real.logb_pow, Real.logb_pow,
      Real.logb_self_eq_one one_lt_two, mul_one, Nat.cast_two]
  rw [LoopState.logValue, LoopState.logValue, hlog, squareAndExtract_r_toNat hr]
  push_cast
  ring

/-- An iteration doubles the renormalised value. -/
theorem logValue_log2Loop_succ (mode : RenormRound) (hhalf : 2 ≤ half) (h : LoopInv half st) (hr : st.r = 0#32)
    (hk : k ≤ 31) : (log2Loop mode half (k + 1) st).logValue =
      2 * (renormalise mode half (log2Loop mode half k st)).logValue := by
  refine logValue_squareAndExtract (loopInv_renormalise mode hhalf (loopInv_log2Loop mode hhalf k h)) ?_
  rw [renormalise_r]
  exact log2Loop_r_lt_two_pow_31 mode half hr hk

/-- The value of the set-up is the logarithm of the input's mantissa. -/
theorem logValue_log2Init {w : Nat} {v : BitVec w} (hv : v ≠ 0#w) :
    (log2Init v).logValue = Real.logb 2 ((v.toNat : ℝ) / 2 ^ Nat.log2 v.toNat) := by
  rw [LoopState.logValue, mantissa_log2Init hv, bsr_eq_log2 hv]
  simp [log2Init]

theorem mantissa_log2Init_lt_two {w : Nat} {v : BitVec w} (hv : v ≠ 0#w) : (log2Init v).mantissa < 2 := by
  rw [LoopState.mantissa, div_lt_iff₀ (by positivity), ← pow_succ']
  exact_mod_cast (log2Init_bounds hv).2

/-- A mantissa below 2 stays below 2: rounding alone makes it 2 (R138). -/
theorem mantissa_squareAndExtract_lt_two (hlt : st.mantissa < 2) : (squareAndExtract st).mantissa < 2 := by
  have hnonneg := mantissa_nonneg st
  rw [mantissa_squareAndExtract, extractedBit_eq]
  split_ifs with h
  · rw [pow_one]
    nlinarith
  · rw [pow_zero, div_one]
    exact not_le.mp h

/-! ### Without a renormalisation pass the value is exact -/

theorem exact_log2Loop {mode : RenormRound} (hhalf : 2 ≤ half) (h : LoopInv half st) (hr : st.r = 0#32)
    (hlt : st.mantissa < 2) (hk : k ≤ 31) (hw : ∀ j, j < k → (log2Loop mode half j st).w < 2 ^ half) :
    (log2Loop mode half k st).logValue = 2 ^ k * st.logValue ∧ (log2Loop mode half k st).mantissa < 2 := by
  induction k with
  | zero => exact ⟨(by rw [pow_zero, one_mul]; rfl), hlt⟩
  | succ k ih =>
    obtain ⟨hvalue, hmant⟩ := ih (by omega) fun j hj => hw j (by omega)
    have hid : renormalise mode half (log2Loop mode half k st) = log2Loop mode half k st :=
      renormWhile_of_lt mode 2 (hw k (by omega))
    constructor
    · rw [logValue_log2Loop_succ mode hhalf h hr (by omega), hid, hvalue, pow_succ']
      ring
    · rw [log2Loop, log2Iteration, hid]
      exact mantissa_squareAndExtract_lt_two hmant

theorem log2Fraction_eq_exactFraction {mode : RenormRound} (hhalf : 2 ≤ half) {w f : Nat} {v : BitVec w} (hv : v ≠ 0#w)
    (hwidth : w ≤ 2 * half) (hf : f ≤ 31) (hw : ∀ k, k < f → (log2Loop mode half k (log2Init v)).w < 2 ^ half) :
    ((log2Fraction mode half v f).toNat : Int) = exactFraction v.toNat f := by
  have hinv := loopInv_log2Init hv hwidth
  obtain ⟨hvalue, hlt⟩ := exact_log2Loop hhalf hinv rfl (mantissa_log2Init_lt_two hv) hf hw
  have hinvf := loopInv_log2Loop mode hhalf f hinv
  rw [exactFraction, ← logValue_log2Init hv, ← hvalue, log2Fraction_eq_log2Loop mode (by omega) hv, eq_comm,
    Int.floor_eq_iff, Int.cast_natCast]
  exact ⟨r_le_logValue hinvf, logValue_lt_r_add_one hinvf hlt⟩

/-- Settles O40: squaring and extracting are exact, and the mantissa stays below 2. -/
theorem exactWithoutRenormalisation : Obligations.ExactWithoutRenormalisation := by
  refine fun s v f hr => ⟨fun hf hv hw => ?_, fun hf hv hw => ?_⟩
  · refine ⟨_, _, exec_log2_32_of_ne_zero hr hf hv, ?_⟩
    rw [← input32_toNat]
    exact log2Fraction_eq_exactFraction (half := 16) (by decide) (input32_ne_zero hv) (by decide) (by omega) hw
  · exact ⟨_, _, exec_log2_64_of_ne_zero hr hf hv,
      log2Fraction_eq_exactFraction (half := 32) (by decide) hv (by decide) (by omega) hw⟩

/-! ### Under CEIL the value is never below the exact one -/

theorem mantissa_le_renormalise_ceil (hhalf : 2 ≤ half) (h : LoopInv half st) :
    st.mantissa ≤ (renormalise .ceil half st).mantissa := by
  refine le_of_mul_le_mul_right ?_ (by positivity : (0 : ℝ) < 2 ^ (half - 1))
  rw [mantissa_renormalise .ceil hhalf h]
  exact Int.le_ceil _

theorem logValue_le_renormalise_ceil (hhalf : 2 ≤ half) (h : LoopInv half st) :
    st.logValue ≤ (renormalise .ceil half st).logValue := by
  have hpos : 0 < st.mantissa := zero_lt_one.trans_le (one_le_mantissa h)
  rw [LoopState.logValue, LoopState.logValue, renormalise_r]
  gcongr
  · exact one_lt_two
  · exact mantissa_le_renormalise_ceil hhalf h

/-- The second bound holds where the mantissa has been rounded up to 2 as well: from then on every bit is 1. -/
theorem ceil_log2Loop (hhalf : 2 ≤ half) (h : LoopInv half st) (hr : st.r = 0#32) (hlt : st.mantissa < 2) (hk : k ≤ 31) :
    2 ^ k * st.logValue ≤ (log2Loop .ceil half k st).logValue ∧
      2 ^ k * st.logValue < (log2Loop .ceil half k st).r.toNat + 1 := by
  induction k with
  | zero =>
    rw [pow_zero, one_mul]
    exact ⟨le_rfl, logValue_lt_r_add_one h hlt⟩
  | succ k ih =>
    obtain ⟨hvalue, hbits⟩ := ih (by omega)
    have hinv := loopInv_log2Loop .ceil hhalf k h
    have hinv' := loopInv_renormalise .ceil hhalf hinv
    have hsucc : 2 ^ (k + 1) * st.logValue ≤ (log2Loop .ceil half (k + 1) st).logValue := by
      have hle := logValue_le_renormalise_ceil hhalf hinv
      rw [logValue_log2Loop_succ .ceil hhalf h hr (by omega), pow_succ']
      linarith
    refine ⟨hsucc, ?_⟩
    rcases (mantissa_le_two hinv').lt_or_eq with hm | hm
    · exact hsucc.trans_lt (logValue_lt_r_add_one (loopInv_log2Loop .ceil hhalf (k + 1) h)
        (mantissa_squareAndExtract_lt_two hm))
    · have hone : extractedBit (renormalise .ceil half (log2Loop .ceil half k st)) = 1 := by
        rw [extractedBit_eq, hm, if_pos (by norm_num)]
      rw [log2Loop, log2Iteration_r_toNat .ceil (log2Loop_r_lt_two_pow_31 .ceil half hr (by omega)), hone, pow_succ']
      push_cast
      linarith

theorem exactFraction_le_log2Fraction_ceil (hhalf : 2 ≤ half) {w f : Nat} {v : BitVec w} (hv : v ≠ 0#w)
    (hw : w ≤ 2 * half) (hf : f ≤ 31) : exactFraction v.toNat f ≤ ((log2Fraction .ceil half v f).toNat : Int) := by
  obtain ⟨-, hbits⟩ := ceil_log2Loop hhalf (loopInv_log2Init hv hw) rfl (mantissa_log2Init_lt_two hv) hf
  rw [exactFraction, ← logValue_log2Init hv, log2Fraction_eq_log2Loop .ceil (by omega) hv, Int.floor_le_iff,
    Int.cast_natCast]
  exact hbits

/-- Settles O39: rounding up never lowers the value, and the other steps are exact. -/
theorem ceilIsNeverBelowTheExactValue : Obligations.CeilIsNeverBelowTheExactValue := by
  refine fun s v f hr hmode => ⟨fun hf hv => ?_, fun hf hv => ?_⟩
  · refine ⟨_, _, exec_log2_32_of_ne_zero hr hf hv, rfl, ?_⟩
    rw [hmode, ← input32_toNat]
    exact exactFraction_le_log2Fraction_ceil (by decide) (input32_ne_zero hv) (by decide) (by omega)
  · refine ⟨_, _, exec_log2_64_of_ne_zero hr hf hv, rfl, ?_⟩
    rw [hmode]
    exact exactFraction_le_log2Fraction_ceil (by decide) hv (by decide) (by omega)

/-! ### The error of the rounded loop -/

/-- The logarithm grows at most as fast as its argument above 1, up to the factor 1 / ln 2. -/
theorem logb_sub_logb_le {x y d : ℝ} (hx : 1 ≤ x) (hy : 1 ≤ y) (hd : 0 ≤ d) (h : y ≤ x + d) :
    Real.logb 2 y - Real.logb 2 x ≤ d / Real.log 2 := by
  have hx0 : 0 < x := zero_lt_one.trans_le hx
  have hy0 : 0 < y := zero_lt_one.trans_le hy
  have hratio : y / x - 1 ≤ d := by
    rw [sub_le_iff_le_add, div_le_iff₀ hx0]
    nlinarith
  rw [← Real.logb_div hy0.ne' hx0.ne', Real.logb]
  exact div_le_div_of_nonneg_right ((Real.log_le_sub_one_of_pos (div_pos hy0 hx0)).trans hratio)
    (Real.log_pos one_lt_two).le

/-- The unit of the rounding error: half a grid step of the mantissa, as a logarithm. -/
noncomputable def roundingUnit (half : Nat) : ℝ := 1 / 2 ^ half / Real.log 2

/-- A renormalise step lowers the mantissa by at most half a grid step and raises it by at most a whole one. -/
theorem mantissa_renormalise_error (mode : RenormRound) (hhalf : 2 ≤ half) (h : LoopInv half st) :
    st.mantissa ≤ (renormalise mode half st).mantissa + 1 / 2 ^ half ∧
      (renormalise mode half st).mantissa ≤ st.mantissa + 2 * (1 / 2 ^ half) := by
  have hpos : (0 : ℝ) < 2 ^ (half - 1) := by positivity
  have hstep : (1 : ℝ) / 2 ^ half * 2 ^ (half - 1) = 1 / 2 := by
    rw [← Nat.sub_add_cancel (by omega : 1 ≤ half), pow_succ, Nat.add_sub_cancel]
    field_simp
  have hlo := sub_half_le_roundInt mode (st.mantissa * 2 ^ (half - 1))
  have hhi := roundInt_le_add_one mode (st.mantissa * 2 ^ (half - 1))
  rw [← mantissa_renormalise mode hhalf h] at hlo hhi
  constructor <;> refine le_of_mul_le_mul_right ?_ hpos <;> linarith

theorem logValue_renormalise_error (mode : RenormRound) (hhalf : 2 ≤ half) (h : LoopInv half st) :
    st.logValue - roundingUnit half ≤ (renormalise mode half st).logValue ∧
      (renormalise mode half st).logValue ≤ st.logValue + 2 * roundingUnit half := by
  have hm := one_le_mantissa h
  have hm' := one_le_mantissa (loopInv_renormalise mode hhalf h)
  obtain ⟨hlo, hhi⟩ := mantissa_renormalise_error mode hhalf h
  have hlo' := logb_sub_logb_le hm' hm (by positivity) hlo
  have hhi' := logb_sub_logb_le hm hm' (by positivity) hhi
  rw [mul_div_assoc] at hhi'
  unfold LoopState.logValue roundingUnit
  rw [renormalise_r]
  constructor <;> linarith

/-- Each iteration doubles the error so far and that of its own rounding. -/
theorem log2Loop_error (mode : RenormRound) (hhalf : 2 ≤ half) (h : LoopInv half st) (hr : st.r = 0#32) (hk : k ≤ 31) :
    2 ^ k * st.logValue - 2 * (2 ^ k - 1) * roundingUnit half ≤ (log2Loop mode half k st).logValue ∧
      (log2Loop mode half k st).logValue ≤ 2 ^ k * st.logValue + 2 * (2 ^ k - 1) * (2 * roundingUnit half) := by
  induction k with
  | zero => simp [log2Loop]
  | succ k ih =>
    obtain ⟨hlo, hhi⟩ := ih (by omega)
    obtain ⟨hlo', hhi'⟩ := logValue_renormalise_error mode hhalf (loopInv_log2Loop mode hhalf k h)
    rw [logValue_log2Loop_succ mode hhalf h hr (by omega), pow_succ']
    constructor <;> linarith

theorem roundingUnit_pos (half : Nat) : 0 < roundingUnit half :=
  div_pos (by positivity) (Real.log_pos one_lt_two)

/-- Over any number of iterations the roundings cost less than two units below and four above, and the bits left out less than
one place of the fraction. -/
theorem log2Fraction_error (mode : RenormRound) (hhalf : 2 ≤ half) {w f : Nat} {v : BitVec w} (hv : v ≠ 0#w)
    (hw : w ≤ 2 * half) (hf : f ≤ 31) :
    Real.logb 2 ((v.toNat : ℝ) / 2 ^ Nat.log2 v.toNat) - 2 * roundingUnit half - 1 / 2 ^ f ≤
        ((log2Fraction mode half v f).toNat : ℝ) / 2 ^ f ∧
      ((log2Fraction mode half v f).toNat : ℝ) / 2 ^ f ≤
        Real.logb 2 ((v.toNat : ℝ) / 2 ^ Nat.log2 v.toNat) + 4 * roundingUnit half := by
  have hinv := loopInv_log2Init hv hw
  have hinvf := loopInv_log2Loop mode hhalf f hinv
  have hunit := roundingUnit_pos half
  have hbits := r_le_logValue hinvf
  have hrest := logValue_le_r_add_one hinvf
  obtain ⟨hlo, hhi⟩ := log2Loop_error mode hhalf hinv rfl hf
  have hpos : (0 : ℝ) < 2 ^ f := by positivity
  have hplace : (1 : ℝ) / 2 ^ f * 2 ^ f = 1 := div_mul_cancel₀ _ hpos.ne'
  rw [log2Fraction_eq_log2Loop mode (by omega) hv, ← logValue_log2Init hv, le_div_iff₀ hpos, div_le_iff₀ hpos]
  constructor <;> linarith

theorem abs_log2Fraction_error_lt (mode : RenormRound) (hhalf : 2 ≤ half) {w f : Nat} {v : BitVec w} (hv : v ≠ 0#w)
    (hw : w ≤ 2 * half) (hf : f ≤ 31) {d : ℝ} (hbelow : 2 * roundingUnit half + 1 / 2 ^ f < d)
    (habove : 4 * roundingUnit half < d) :
    |((log2Fraction mode half v f).toNat : ℝ) / 2 ^ f - Real.logb 2 ((v.toNat : ℝ) / 2 ^ Nat.log2 v.toNat)| < d := by
  obtain ⟨hlo, hhi⟩ := log2Fraction_error mode hhalf hv hw hf
  rw [abs_lt]
  constructor <;> linarith

/-! ### The error-bound scenario -/

theorem roundingUnit_sixteen_lt : roundingUnit 16 < 23 / 1000000 := by
  have hlog := Real.log_two_gt_d9
  rw [roundingUnit, div_lt_iff₀ (Real.log_pos one_lt_two)]
  linarith

/-- Settles O41: with H = 16 and F = 16 the error is below 1e-4 for any input, and here INT_PART is 8. -/
theorem errorBoundScenario : Obligations.ErrorBoundScenario := by
  intro s v hr hlo hhi
  have hlog : Nat.log2 v.toNat = 8 := (Nat.log2_eq_iff (by omega)).mpr ⟨hlo, hhi⟩
  have hv : v.toNat % 2 ^ 32 ≠ 0 := by omega
  have hinput : (input32 v).toNat = v.toNat := (input32_toNat v).trans (Nat.mod_eq_of_lt (by omega))
  have hunit := roundingUnit_sixteen_lt
  have herror := abs_log2Fraction_error_lt (half := 16) (f := 16) (d := 1 / 10000) s.renormRound (by decide)
    (input32_ne_zero hv) (by decide) (by decide) (by linarith) (by linarith)
  refine ⟨_, _, exec_log2_32_of_ne_zero hr (by decide) hv, ?_⟩
  rw [toNat_ofNat_bsr (input32_ne_zero hv) (by decide), bsr_eq_log2 (input32_ne_zero hv), hinput, hlog, Nat.cast_ofNat,
    sub_self, zero_add, show (256 : ℝ) = 2 ^ 8 by norm_num]
  rwa [hinput, hlog] at herror

end Sys2Proof.Machine
end

section
/-! PROOFS. Faults and instances (60_exceptions.md R172 to R174, R181). -/

namespace Sys2Proof.Machine

/-! ### A fault writes STATUS only -/

/-- The cause codes of a command are 1 to 4 (R171). -/
theorem causeCode_range (c : Cause) : 1 ≤ (causeCode c).toNat ∧ (causeCode c).toNat ≤ 4 := by
  cases c <;> decide

theorem faultStatus_eq_ofNat (c : Cause) :
    faultStatus c = BitVec.ofNat 32 (causeCode c).toNat <<< 4 ||| 1#32 := by
  rw [BitVec.ofNat_toNat]
  rfl

/-- The only effect that sets FAULT is a fault's. -/
theorem Effect.exists_cause_of_faulted {s t : State} (h : Effect s t) (hs : s.faulted = false) (ht : t.faulted = true) :
    ∃ cause, t = { s with status := faultStatus cause } := by
  cases h with
  | fault cause => exact ⟨cause, rfl⟩
  | _ => exact absurd (hs.symm.trans ht) Bool.false_ne_true

/-- A CMD write that leaves FAULT set found it clear, and its word is not kept. -/
theorem exists_cause_of_runCommandWord_faulted {c : Word16} {s t : State} (h : runCommandWord c s = .next t)
    (ht : t.faulted = true) : ∃ cause, t = { s with status := faultStatus cause } := by
  obtain ⟨⟨_, hs, -⟩, ⟨-, rfl⟩ | ⟨i, u, -, hu, rfl⟩⟩ := runCommandWord_next h
  · exact ⟨_, rfl⟩
  · rw [keepCommandWord_faulted] at ht
    obtain ⟨_, -, he⟩ := exec_next hu
    rw [keepCommandWord_of_faulted ht]
    exact he.exists_cause_of_faulted hs ht

/-- Settles O44: the fault of an illegal word or of a command, with its cause's code. -/
theorem faultsArePrecise : Obligations.FaultsArePrecise := by
  intro s t c rest hp h ht
  rw [step_cmdWrite hp] at h
  obtain ⟨cause, rfl⟩ := exists_cause_of_runCommandWord_faulted h ht
  obtain ⟨hlo, hhi⟩ := causeCode_range cause
  exact ⟨_, hlo, hhi, by rw [faultStatus_eq_ofNat]⟩

/-! ### While FAULT = 1 -/

/-- No action but reset writes STATUS while FAULT = 1, since a CMD write does not go on (R173). -/
theorem status_of_perform_of_faulted {a : HostAction} {s t : State} (hf : s.faulted = true) (ha : a ≠ .reset)
    (h : perform a s = .next t) : t.status = s.status := by
  obtain ⟨r, rfl⟩ | ⟨v, -, rfl⟩ | ⟨c, -, h⟩ | ⟨rfl, -⟩ := perform_next h
  · rfl
  · rfl
  · rw [runCommandWord_of_faulted c hf] at h
    cases h
  · exact absurd rfl ha

/-- Settles O10: commands are stuck at their first check, and the other accesses do not look at STATUS. -/
theorem faultIsSticky : Obligations.FaultIsSticky := by
  intro s hf
  refine ⟨fun i => exec_of_faulted i hf, fun c rest hp => ?_, fun v rest hp => step_operandWrite hp, fun rest => ?_,
    fun v rest => ?_, fun v rest => ?_, fun v rest => ?_, fun t h hreset => ?_⟩
  · rw [step_cmdWrite hp]
    exact runCommandWord_of_faulted c hf
  · obtain ⟨hstatus, -⟩ := readsAndOperandWrites s rest
    exact hstatus
  · obtain ⟨-, hoperand, -⟩ := readsAndOperandWrites s rest
    exact hoperand v
  · obtain ⟨-, -, hresult, -⟩ := readsAndOperandWrites s rest
    exact hresult v
  · obtain ⟨-, -, -, hintPart, -⟩ := readsAndOperandWrites s rest
    exact hintPart v
  · obtain ⟨-, rfl⟩ | ⟨a, rest, hp, h⟩ := step_next h
    · rfl
    · have ha : a ≠ .reset := by
        rintro rfl
        exact hreset (by rw [hp]; rfl)
      exact status_of_perform_of_faulted (s := { s with pending := rest }) hf ha h

/-! ### The order of the checks -/

section Checks
variable {s : State} {c : Word16} {rest : List HostAction} (hp : s.pending = cmdWrite c :: rest)
include hp

/-- A CMD write of an illegal word records ILLEGAL_COMMAND, whatever OPERAND holds. -/
theorem step_of_not_legal {v : Word64} (hr : Ready s v) (hc : legal c = false) :
    step s = .next { s with status := faultStatus .illegalCommand, pending := rest } := by
  obtain ⟨e, he⟩ := exists_decode_eq_error (c := c) (by simp [hc])
  rw [step_cmdWrite hp]
  exact runCommandWord_error he (s := { s with pending := rest }) hr

/-- A CMD write whose command faults records the fault and does not keep the word. -/
theorem step_of_exec_faults {i : Instr} {status : Word32} (hfault : faultBit status = true) (hc : decode c = .ok i)
    (h : exec i { s with pending := rest } = .next { s with status := status, pending := rest }) :
    step s = .next { s with status := status, pending := rest } := by
  have hfaulted : State.faulted { s with status := status, pending := rest } = true := hfault
  rw [step_cmdWrite hp, runCommandWord_ok hc, h]
  exact congrArg _ (keepCommandWord_of_faulted hfaulted)

end Checks

/-- Settles O12: the first two checks come before the word is looked at, the last two are the command's own. -/
theorem checksComeInOrder : Obligations.ChecksComeInOrder := by
  intro s c rest hp
  refine ⟨fun hf => ?_, fun hf ho => ?_, fun v hr => ?_⟩
  · rw [step_cmdWrite hp]
    exact runCommandWord_of_faulted c hf
  · rw [step_cmdWrite hp]
    exact runCommandWord_of_unwritten c hf ho
  · have hr' : Ready { s with pending := rest } v := hr
    refine ⟨step_of_not_legal hp hr, fun f hc hf => ?_, fun f hc hf => ?_, fun hc hv => ?_, fun hc hv => ?_⟩
    · exact step_of_exec_faults hp (by decide) hc ((exec_log2_32_of_ready hr').trans (log2Core_of_cap_lt _ _ hf))
    · exact step_of_exec_faults hp (by decide) hc ((exec_log2_64_of_ready hr').trans (log2Core_of_cap_lt _ _ hf))
    · exact step_of_exec_faults hp (by decide) hc (exec_bsf64_of_zero (hv ▸ hr'))
    · exact step_of_exec_faults hp (by decide) hc (exec_bsr64_of_zero (hv ▸ hr'))

/-! ### Instances -/

theorem stepInstance_of_next {k : Nat} {blocks : List State} {s t : State} (hk : blocks[k]? = some s)
    (h : step s = .next t) : stepInstance k blocks = .next (blocks.set k t) := by
  simp only [stepInstance, hk, h]

/-- Settles O59: a joint step replaces one entry of the list. -/
theorem instancesAreIndependent : Obligations.InstancesAreIndependent := by
  intro k blocks s t hk h
  obtain ⟨hlt, -⟩ := List.getElem?_eq_some_iff.mp hk
  exact ⟨blocks.set k t, stepInstance_of_next hk h, List.getElem?_set_self hlt, List.length_set,
    fun j hj => List.getElem?_set_ne hj.symm⟩

end Sys2Proof.Machine
end

section
/-! PROOFS. Runs: reset, the boot order and a run that is stuck (60_exceptions.md R173; 70_reset_and_hazards.md R200, R202,
R208). -/

namespace Sys2Proof.Machine

/-! ### A run by its first step -/

section Run
variable {M : Host.Core} {s t : M.State}

theorem run_succ_of_next (k : Nat) (h : M.step s = .next t) : M.run (k + 1) s = M.run k t := by
  rw [Host.Core.run, h]

theorem run_succ_of_fault {e : M.Fault} (k : Nat) (h : M.step s = .fault e) : M.run (k + 1) s = .fault e := by
  rw [Host.Core.run, h]

theorem run_one (s : M.State) : M.run 1 s = M.step s := by
  rw [Host.Core.run]
  cases M.step s <;> rfl

end Run

/-! ### Reset and the boot order -/

/-- Reset clears FAULT, so that OPERAND is all a command still waits for. -/
theorem ready_of_operand_after_reset (s : State) (v : Word64) : Ready { resetBlock s with operand := .value v } v :=
  ⟨resetBlock_faulted s, rfl⟩

/-- Settles O7: the step is `resetBlock`, which clears FAULT with the rest of STATUS. -/
theorem resetAction : Obligations.ResetAction := fun _ _ hp =>
  ⟨step_reset hp, ready_of_operand_after_reset _⟩

/-- Settles O18: the run is a reset, an OPERAND write and a CMD write, one step each. -/
theorem bootOrderRunsACommand : Obligations.BootOrderRunsACommand := by
  intro s v c i rest hc hp
  have hreset : step s = .next (resetBlock { s with pending := operandWrite v :: cmdWrite c :: rest }) := step_reset hp
  have hoperand : step (resetBlock { s with pending := operandWrite v :: cmdWrite c :: rest }) =
      .next { resetBlock s with operand := .value v, pending := cmdWrite c :: rest } := step_operandWrite rfl
  have hcmd : step { resetBlock s with operand := .value v, pending := cmdWrite c :: rest } =
      mapNext (keepCommandWord c) (exec i { resetBlock s with operand := .value v, pending := rest }) :=
    (step_cmdWrite rfl).trans (runCommandWord_ok hc _)
  have hrun : core.run 3 s = core.run 1 { resetBlock s with operand := .value v, pending := cmdWrite c :: rest } :=
    (run_succ_of_next (M := core) 2 hreset).trans (run_succ_of_next (M := core) 1 hoperand)
  exact ⟨hrun.trans ((run_one (M := core) _).trans hcmd), ready_of_operand_after_reset { s with pending := rest } v⟩

/-! ### A stuck run -/

theorem finished_of_pending {s : State} {a : HostAction} {rest : List HostAction} (h : s.pending = a :: rest) :
    finished s = false := by
  rw [finished, h]; rfl

/-- Settles O19: the first step is the stop `stuck`, and a run of no step leaves the CMD write to be performed. -/
theorem stuckRunNeverEnds : Obligations.StuckRunNeverEnds := by
  intro s c rest hf hp
  have hstep : step s = .fault .stuck := by
    rw [step_cmdWrite hp]
    exact runCommandWord_of_faulted c hf
  have hrun : ∀ (k : Nat) (t : State), core.run (k + 1) s ≠ .next t := by
    intro k t h
    rw [run_succ_of_fault (M := core) k hstep] at h
    cases h
  refine ⟨hrun, ?_⟩
  rintro ⟨k, t, h, hfinished, -⟩
  cases k with
  | zero =>
    cases h
    exact absurd ((finished_of_pending hp).symm.trans hfinished) Bool.false_ne_true
  | succ k => exact hrun k t h

end Sys2Proof.Machine
end
